-- ==== Sys2Proof/Word.lean ====
section
/-! DEFINITION. The byte, the 32-bit register word, the cache slot number and the pixel (R8, R10, R22, R28). -/

namespace Sys2Proof

/-- A byte is 8 bits, bit 7 the most significant (R8). -/
abbrev Byte := BitVec 8

/-- The width of the `WIDTH` and `HEIGHT` registers (R7, R22, R32). -/
abbrev Word32 := BitVec 32

/-- A colour-cache slot number, 0 to 63 (R28, R99). -/
abbrev Slot := Fin 64

/-- A pixel: four unsigned 8-bit channels; equality is exact 4-tuple equality (R10). -/
structure Pixel where
  r : Byte
  g : Byte
  b : Byte
  a : Byte
  deriving DecidableEq, Repr

end Sys2Proof
end

