-- ==== Sys2Proof/Syntax.lean ====
section
/-! DEFINITION. The six instructions of the payload (R97), operands as the listing notation R110 writes them. -/

namespace Sys2Proof

/-- One constructor per row of spec/opcode_table.json. Operands are the decoded, unbiased values. -/
inductive Instr where
  /-- `RGB r, g, b` (R103): three raw channel bytes. -/
  | rgb (r g b : Byte)
  /-- `RGBA r, g, b, a` (R104): four raw channel bytes. -/
  | rgba (r g b a : Byte)
  /-- `INDEX idx` (R99): a cache slot number. -/
  | index (idx : Slot)
  /-- `DIFF dr, dg, db` (R100): three deltas, each in -2..1. -/
  | diff (dr dg db : Int)
  /-- `LUMA dg, drg, dbg` (R101): the green delta in -32..31, red-minus-green and blue-minus-green in -8..7. -/
  | luma (dg drg dbg : Int)
  /-- `RUN length` (R102): the run length, 1..62. -/
  | run (length : Nat)
  deriving DecidableEq, Repr

namespace Instr

/-- The instruction's length in bytes (R97). -/
def length : Instr → Nat
  | .rgb _ _ _ => 4
  | .rgba _ _ _ _ => 5
  | .index _ => 1
  | .diff _ _ _ => 1
  | .luma _ _ _ => 2
  | .run _ => 1

end Instr

end Sys2Proof
end

