-- ==== Sys2Proof/WellFormed.lean ====
section
/-! DEFINITION. The operand ranges of R105: which terms of `Instr` are instructions of the hardware. -/

namespace Sys2Proof

namespace Instr

/-- The operand ranges of R105. Raw channel bytes and slot numbers are in range by their types. -/
def wellFormed : Instr → Bool
  | .rgb _ _ _ => true
  | .rgba _ _ _ _ => true
  | .index _ => true
  | .diff dr dg db => decide (-2 ≤ dr ∧ dr ≤ 1) && decide (-2 ≤ dg ∧ dg ≤ 1) && decide (-2 ≤ db ∧ db ≤ 1)
  | .luma dg drg dbg =>
      decide (-32 ≤ dg ∧ dg ≤ 31) && decide (-8 ≤ drg ∧ drg ≤ 7) && decide (-8 ≤ dbg ∧ dbg ≤ 7)
  | .run length => decide (1 ≤ length ∧ length ≤ 62)

/-- The instruction is one the encoding can carry (R105). -/
abbrev WellFormed (i : Instr) : Prop := i.wellFormed = true

end Instr

end Sys2Proof
end

