-- ==== Sys2Proof/Decode.lean ====
section
/-! DEFINITION. The opcode parser (R98, R202), the instruction formats (R99 to R106) as a total decoder on any
bytes, and the encoder of the same formats (R110). -/

namespace Sys2Proof

/-- The six classes a first byte can select (R97). -/
inductive OpClass where
  | rgb | rgba | index | diff | luma | run
  deriving DecidableEq, Repr

/-- Classification of a first byte (R98): the two full-byte opcodes first, then the top two bits. -/
def classify (b0 : Byte) : OpClass :=
  if b0 = 0xFE then .rgb
  else if b0 = 0xFF then .rgba
  else if b0 &&& 0xC0 = 0x00 then .index
  else if b0 &&& 0xC0 = 0x40 then .diff
  else if b0 &&& 0xC0 = 0x80 then .luma
  else .run

/-- The length `L` that follows from the class (R97, R202). -/
def OpClass.length : OpClass → Nat
  | .rgb => 4
  | .rgba => 5
  | .index => 1
  | .diff => 1
  | .luma => 2
  | .run => 1

/-- `v[lo+w-1 : lo]` of a byte, as an unsigned number (R8). -/
def field (v : Byte) (lo w : Nat) : Nat := (v.extractLsb' lo w).toNat

/-- Why bytes are no complete instruction. -/
inductive DecodeError where
  /-- There is no first byte. -/
  | noBytes
  /-- The first byte selects this class and its operand bytes are not all there (R203). -/
  | truncated (op : OpClass)
  deriving DecidableEq, Repr

/-- The instruction at the head of `bs` and the bytes after it. Operand assembly is the table of R105. The order
of the fields of `DIFF` and `LUMA` is PRESUMED through the spec (GK1, GK2, log 9). -/
def decode : List Byte → Except DecodeError (Instr × List Byte)
  | [] => .error .noBytes
  | b0 :: rest =>
    match classify b0 with
    | .rgb =>
      match rest with
      | b1 :: b2 :: b3 :: t => .ok (.rgb b1 b2 b3, t)
      | _ => .error (.truncated .rgb)
    | .rgba =>
      match rest with
      | b1 :: b2 :: b3 :: b4 :: t => .ok (.rgba b1 b2 b3 b4, t)
      | _ => .error (.truncated .rgba)
    | .index => .ok (.index (Fin.ofNat 64 (field b0 0 6)), rest)
    | .diff =>
      .ok (.diff ((field b0 4 2 : Int) - 2) ((field b0 2 2 : Int) - 2) ((field b0 0 2 : Int) - 2), rest)
    | .luma =>
      match rest with
      | b1 :: t =>
        .ok (.luma ((field b0 0 6 : Int) - 32) ((field b1 4 4 : Int) - 8) ((field b1 0 4 : Int) - 8), t)
      | [] => .error (.truncated .luma)
    | .run => .ok (.run (field b0 0 6 + 1), rest)

/-- A biased field as a byte: `v + bias`, before it is shifted into place (R105, R110). -/
def biased (v bias : Int) : Byte := BitVec.ofInt 8 (v + bias)

/-- The bytes of an instruction, by the notation table of R110. -/
def encode : Instr → List Byte
  | .rgb r g b => [0xFE, r, g, b]
  | .rgba r g b a => [0xFF, r, g, b, a]
  | .index idx => [0x00 ||| BitVec.ofNat 8 idx.val]
  | .diff dr dg db => [0x40 ||| biased dr 2 <<< 4 ||| biased dg 2 <<< 2 ||| biased db 2]
  | .luma dg drg dbg => [0x80 ||| biased dg 32, biased drg 8 <<< 4 ||| biased dbg 8]
  | .run length => [0xC0 ||| BitVec.ofNat 8 (length - 1)]

/-- The bytes of an instruction whose bits are `w`, as the opcode table numbers them: byte `k` is bits `8k+7 : 8k`.
Bits from `nbits` on are 0, up to the longest instruction (5 bytes). -/
def tableBytes (nbits w : Nat) : List Byte :=
  let v := w % 2 ^ nbits
  [BitVec.ofNat 8 v, BitVec.ofNat 8 (v / 2 ^ 8), BitVec.ofNat 8 (v / 2 ^ 16), BitVec.ofNat 8 (v / 2 ^ 24),
    BitVec.ofNat 8 (v / 2 ^ 32)]

/-- The instruction the decoder reads from an opcode-table word. -/
def decodeTableWord (nbits w : Nat) : Option Instr :=
  match decode (tableBytes nbits w) with
  | .ok (i, _) => some i
  | .error _ => none

end Sys2Proof
end

