-- ==== Sys2Proof/Config.lean ====
section
/-! DEFINITION. The constants of R6 and the one free value of the model. -/

namespace Sys2Proof.Config

/-- `CACHE_SLOTS` (R6). -/
def cacheSlots : Nat := 64

/-- `RUN_MAX`: the greatest run length one `RUN` carries (R6). -/
def runMax : Nat := 62

/-- `HEADER_LEN` (R6). -/
def headerLen : Nat := 14

/-- `TRAILER_LEN` (R6). -/
def trailerLen : Nat := 8

/-- `MIN_STREAM_LEN`: the least length the decoder accepts (R6). -/
def minStreamLen : Nat := 22

/-- `PREV_INIT`: the previous pixel at the start of every operation (R6). -/
def prevInit : Pixel := ⟨0, 0, 0, 255⟩

/-- `EMPTY`: the content of a cache slot never written (R6). -/
def empty : Pixel := ⟨0, 0, 0, 0⟩

/-- `MAGIC`: ASCII "qoif". PRESUMED through the spec (GK3, log 9): the numbers are those of the ASCII table (R91). -/
def magic : List Byte := [0x71, 0x6F, 0x69, 0x66]

/-- `TRAILER`: the 64-bit big-endian value 1 (R6, R96). -/
def trailer : List Byte := [0, 0, 0, 0, 0, 0, 0, 1]

/-- DESIGN CHOICE (log 7). A free value: what a host read of a location the spec calls unspecified returns
(U1, R252), drawn with the counter `State.freeCount`. It has no body, so nothing can be proved of a value. -/
opaque freeNat : Nat → Nat

end Sys2Proof.Config
end

