-- ==== Sys2Proof/Machine/State.lean ====
section
/-! DEFINITION. Everything the spec gives the machine as plain data (10_state.md, 20_memory.md R60), the reasons a
step can stop, and the state after power-on reset (R46, R280). -/

namespace Sys2Proof.Machine

/-- A byte-addressed space (R60, R61): the bytes that have a value, addresses strictly rising. An address not listed
has no value (DESIGN CHOICE, log 2). -/
abbrev Memory := List Host.Cell

/-- A colour cache: 64 slots of one pixel, no valid bit, no tag, no age (R28, R34). -/
abbrev Cache := Vector Pixel 64

/-- The status register of an engine (R27, R39). -/
inductive Status where
  | idle | busy | done | error
  deriving DecidableEq, Repr

/-- The encode errors (R241, R242). -/
inductive EncCause where
  | size | channels
  deriving DecidableEq, Repr

/-- The decode errors (R243 to R247). `trailer` is listed by the spec and raised by no input (R138, R245). -/
inductive DecCause where
  | tooSmall | magic | trailer | channels | insufficient
  deriving DecidableEq, Repr

/-- The encoder engine: parameter, working, status and result registers and its two spaces (R22 to R29, R60). -/
structure EncState where
  /-- `ENC_WIDTH` -/
  width : Word32
  /-- `ENC_HEIGHT` -/
  height : Word32
  /-- `ENC_CHANNELS` -/
  channels : Byte
  /-- `ENC_COLORSPACE` -/
  colorspace : Byte
  /-- `ENC_INLEN` -/
  inLen : Nat
  /-- `ENC_PREV` -/
  prev : Pixel
  /-- `ENC_RUN` -/
  run : Nat
  /-- `ENC_PI` -/
  pi : Nat
  /-- `ENC_WP` -/
  wp : Nat
  /-- `ENC_CACHE` -/
  cache : Cache
  /-- `ENC_STATUS` -/
  status : Status
  /-- `ENC_ERR`; `none` is the code 0 (R248) -/
  err : Option EncCause
  /-- `ENC_OUTLEN` -/
  outLen : Nat
  /-- `ENC_IN` -/
  inMem : Memory
  /-- `ENC_OUT` -/
  outMem : Memory
  deriving DecidableEq, Repr

/-- The decoder engine: parameter, result, working and status registers and its two spaces (R31 to R39, R60). -/
structure DecState where
  /-- `DEC_INLEN` -/
  inLen : Nat
  /-- `DEC_WIDTH` -/
  width : Word32
  /-- `DEC_HEIGHT` -/
  height : Word32
  /-- `DEC_CHANNELS` -/
  channels : Byte
  /-- `DEC_COLORSPACE` -/
  colorspace : Byte
  /-- `DEC_OUTLEN` -/
  outLen : Nat
  /-- `DEC_PREV` -/
  prev : Pixel
  /-- `DEC_CACHE` -/
  cache : Cache
  /-- `DEC_RP`, the program counter (R35) -/
  rp : Nat
  /-- `DEC_PEND` -/
  pend : Nat
  /-- `DEC_FOUND` -/
  found : Bool
  /-- `DEC_PO` -/
  po : Nat
  /-- `DEC_STATUS` -/
  status : Status
  /-- `DEC_ERR`; `none` is the code 0 (R248) -/
  err : Option DecCause
  /-- `DEC_IN` -/
  inMem : Memory
  /-- `DEC_OUT` -/
  outMem : Memory
  deriving DecidableEq, Repr

/-- The four memory spaces (R60). -/
inductive Space where
  | encIn | encOut | decIn | decOut
  deriving DecidableEq, Repr

/-- The registers the host may read (R47). The working registers are not among them (R30, R40). -/
inductive HostReg where
  | encWidth | encHeight | encChannels | encColorspace | encInLen | encStatus | encErr | encOutLen
  | decInLen | decStatus | decErr | decWidth | decHeight | decChannels | decColorspace | decOutLen
  deriving DecidableEq, Repr

/-- What the host can do to the block (R20, R21, R47, R280). There is no host write of `ENC_OUT` or `DEC_OUT`: of it R47
says only that there is "no need". DESIGN CHOICE (log 15). -/
inductive HostCmd where
  | writeEncWidth (v : Word32)
  | writeEncHeight (v : Word32)
  | writeEncChannels (v : Byte)
  | writeEncColorspace (v : Byte)
  | writeEncInLen (n : Nat)
  | writeDecInLen (n : Nat)
  /-- `MemWrite(ENC_IN, addr, n, bytes)` -/
  | writeEncIn (addr : Nat) (bytes : List Byte)
  /-- `MemWrite(DEC_IN, addr, n, bytes)` -/
  | writeDecIn (addr : Nat) (bytes : List Byte)
  /-- `START_ENC` (R21) -/
  | startEnc
  /-- `START_DEC` (R21) -/
  | startDec
  | readReg (reg : HostReg)
  | readMem (space : Space) (addr : Nat)
  /-- hardware reset (R280) -/
  | hardReset
  deriving DecidableEq, Repr

/-- The three agents (R20). -/
inductive Agent where
  | enc | dec | host
  deriving DecidableEq, Repr

/-- The whole block. `host`, `turns`, `hostData` and `freeCount` are the model's own fields (log 3, 4, 7). -/
structure State where
  enc : EncState
  dec : DecState
  /-- host commands not yet delivered, in order (log 3) -/
  host : List HostCmd
  /-- which agents move next, in order (log 4) -/
  turns : List Agent
  /-- the value the last host read returned (log 7) -/
  hostData : Nat
  /-- how many free values have been drawn (log 7) -/
  freeCount : Nat
  deriving DecidableEq, Repr

/-- Why the machine stops. -/
inductive Fault where
  /-- An engine reads a byte of its input space that nobody placed: a host that declares more data than is really
  present (R282, U6). Raised by the pixel fetch, the synchroniser and the instruction fetch. Safe: the model stops. -/
  | inputNotPlaced
  deriving DecidableEq, Repr

/-- Moves the model does not offer. -/
inductive Refusal where
  /-- An instruction without a meaning; raised by no arm of `exec`. Safe. -/
  | notModelled (mnemonic : String)
  /-- The host writes a parameter register or an input space of a BUSY engine (R284, U6 `refuse`). Raised by the
  host's commands only. Safe: the model stops. -/
  | hostWriteWhileBusy
  /-- The host reads an output space or a result register of a BUSY engine (R284, U6 `refuse`). Raised by the host's
  commands only. Safe: the model stops. -/
  | hostReadWhileBusy
  deriving DecidableEq, Repr

/-- ENC after power-on (R46, R280). Working registers are unspecified there: DESIGN CHOICE, log 1 (their values at
operation start). -/
def EncState.reset : EncState where
  width := 0
  height := 0
  channels := 4
  colorspace := 0
  inLen := 0
  prev := Config.prevInit
  run := 0
  pi := 0
  wp := 0
  cache := Vector.replicate 64 Config.empty
  status := .idle
  err := none
  outLen := 0
  inMem := []
  outMem := []

/-- DEC after power-on (R46, R280). Working registers are unspecified there: DESIGN CHOICE, log 1. -/
def DecState.reset : DecState where
  inLen := 0
  width := 0
  height := 0
  channels := 0
  colorspace := 0
  outLen := 0
  prev := Config.prevInit
  cache := Vector.replicate 64 Config.empty
  rp := 14
  pend := 0
  found := false
  po := 0
  status := .idle
  err := none
  inMem := []
  outMem := []

/-- The block after power-on reset (R280), with no host command pending. -/
def State.reset : State where
  enc := EncState.reset
  dec := DecState.reset
  host := []
  turns := []
  hostData := 0
  freeCount := 0

end Sys2Proof.Machine
end

