-- ==== Sys2Proof/Machine/Ops.lean ====
section
/-! DEFINITION. The named operations over memory and registers: the primitives of R8 to R12, the memory spaces, the
colour caches, `append` (R176), `EMIT` (R210), error entry (R251) and operation start (R281). -/

namespace Sys2Proof.Machine

/-! ### Numbers (R8, R9, R11) -/

/-- `u8(v) = v mod 256` (R8). -/
def u8 (v : Int) : Byte := BitVec.ofInt 8 v

/-- `s8(v)`: `u8(v)` read as a signed 8-bit number (R8). -/
def s8 (v : Int) : Int :=
  let u := v % 256
  if u < 128 then u else u - 256

/-- The cache hash (R9). -/
def pixelHash (p : Pixel) : Slot :=
  Fin.ofNat 64 (p.r.toNat * 3 + p.g.toNat * 5 + p.b.toNat * 7 + p.a.toNat * 11)

/-- `be32(v)`: most significant byte first (R11). -/
def be32 (v : Word32) : List Byte :=
  [v.extractLsb' 24 8, v.extractLsb' 16 8, v.extractLsb' 8 8, v.extractLsb' 0 8]

/-- A big-endian sequence of bytes as a number: `from_be32`, `from_be64` (R11). -/
def fromBe (bs : List Byte) : Nat := bs.foldl (fun n b => n * 256 + b.toNat) 0

/-! ### Memory spaces (R12, R60, R61, R67) -/

namespace Memory

/-- The canonical form: addresses strictly rising. -/
abbrev wf (m : Memory) : Prop := (m.map Prod.fst).Pairwise (· < ·)

/-- `MemRead(SPACE, addr, 1)`; `none` where the byte has no value (log 2). -/
def read : Memory → Nat → Option Byte
  | [], _ => none
  | (x, b) :: m, a => if x = a then some b else read m a

/-- `MemWrite(SPACE, addr, 1, b)`. -/
def write : Memory → Nat → Byte → Memory
  | [], a, b => [(a, b)]
  | (x, c) :: m, a, b =>
    if a < x then (a, b) :: (x, c) :: m
    else if a = x then (a, b) :: m
    else (x, c) :: write m a b

/-- `MemRead(SPACE, addr, n)`: `n` one-byte reads, lowest address first. -/
def readBytes (m : Memory) : Nat → Nat → Option (List Byte)
  | _, 0 => some []
  | a, n + 1 =>
    match m.read a, readBytes m (a + 1) n with
    | some b, some bs => some (b :: bs)
    | _, _ => none

/-- `MemWrite(SPACE, addr, n, bytes)`: one-byte writes at increasing addresses. -/
def writeBytes (m : Memory) : Nat → List Byte → Memory
  | _, [] => m
  | a, b :: bs => writeBytes (m.write a b) (a + 1) bs

end Memory

/-! ### Colour caches (R12, R28, R34, R281) -/

/-- Every slot `EMPTY` (R281). -/
def emptyCache : Cache := Vector.replicate 64 Config.empty

/-- `CACHE[i]`. -/
def cacheGet (cache : Cache) (i : Slot) : Pixel := cache[i]

/-- `CACHE[hash(p)] <- p`: last write wins (R173, R210). -/
def cacheStore (cache : Cache) (p : Pixel) : Cache := cache.set (pixelHash p) p

/-! ### Encoder engine -/

namespace EncState

/-- `W*H`, the pixels of the operation, an exact product (R160). -/
def quota (e : EncState) : Nat := e.width.toNat * e.height.toNat

/-- `raise` in ENC (R251): the code, the status, nothing else. -/
def raise (c : EncCause) (e : EncState) : EncState := { e with err := some c, status := .error }

/-- `append(b1, ..., bk)`: the only writer of `ENC_OUT` and `ENC_WP` (R176). -/
def append (bs : List Byte) (e : EncState) : EncState :=
  { e with outMem := e.outMem.writeBytes e.wp bs, wp := e.wp + bs.length }

/-- Working registers at operation start (R46, R281). -/
def init (e : EncState) : EncState :=
  { e with prev := Config.prevInit, cache := emptyCache, run := 0, pi := 0, wp := 0 }

end EncState

/-! ### Decoder engine -/

namespace DecState

/-- `DEC_QUOTA = DEC_WIDTH * DEC_HEIGHT`, an exact product (R38). -/
def quota (d : DecState) : Nat := d.width.toNat * d.height.toNat

/-- `raise` in DEC (R251): the code, the status, nothing else. -/
def raise (c : DecCause) (d : DecState) : DecState := { d with err := some c, status := .error }

/-- Working registers at operation start (R46, R200, R281). -/
def init (d : DecState) : DecState :=
  { d with prev := Config.prevInit, cache := emptyCache, po := 0, rp := 14 }

/-- The bytes `EMIT` writes for a pixel: four when `DEC_CHANNELS = 4`, otherwise three (R210, R214). -/
def pixelBytes (channels : Byte) (p : Pixel) : List Byte :=
  if channels = 4 then [p.r, p.g, p.b, p.a] else [p.r, p.g, p.b]

/-- The address in `DEC_OUT` of the next pixel: `DEC_PO * C` (R37, R210). -/
def outAddr (d : DecState) : Nat := d.po * d.channels.toNat

/-- `EMIT(px)` (R210). -/
def emit (p : Pixel) (d : DecState) : DecState :=
  { d with
    outMem := d.outMem.writeBytes d.outAddr (pixelBytes d.channels p)
    cache := cacheStore d.cache p
    prev := p
    po := d.po + 1 }

/-- `repeat k times: EMIT(px)` (R209). -/
def emitTimes : Nat → Pixel → DecState → DecState
  | 0, _, d => d
  | k + 1, p, d => emitTimes k p (d.emit p)

/-- `DEC_RP <- DEC_RP + L` (R211). -/
def advance (l : Nat) (d : DecState) : DecState := { d with rp := d.rp + l }

end DecState

/-! ### The error registers as the host reads them (R27, R39, R248) -/

/-- The 2-bit code of a status. -/
def statusCode : Status → Nat
  | .idle => 0
  | .busy => 1
  | .done => 2
  | .error => 3

/-- The value of `ENC_ERR`. -/
def encErrCode : Option EncCause → Nat
  | none => 0
  | some .size => 1
  | some .channels => 2

/-- The value of `DEC_ERR`. -/
def decErrCode : Option DecCause → Nat
  | none => 0
  | some .tooSmall => 1
  | some .magic => 2
  | some .trailer => 3
  | some .channels => 4
  | some .insufficient => 5

/-- The next state of an outcome, if it is one. -/
def nextOf {σ φ ρ : Type} : Host.Outcome σ φ ρ → Option σ
  | .next s => some s
  | .fault _ => none
  | .refused _ => none

/-- An engine's outcome as an outcome of the whole block. -/
def mapOutcome {α β : Type} (f : α → β) : Host.Outcome α Fault Refusal → Host.Outcome β Fault Refusal
  | .next a => .next (f a)
  | .fault r => .fault r
  | .refused r => .refused r

end Sys2Proof.Machine
end

