-- ==== Sys2Proof/Machine/Operands.lean ====
section
/-! DEFINITION. The operand forms: the pixel each instruction reconstructs from its operands and the decoder's
registers (R204 to R209), and the pixel and deltas the encoder computes (R162, R168). -/

namespace Sys2Proof.Machine

/-! ### Decoder: the pixel reconstructor -/

/-- `RGB`: alpha is the previous pixel's (R204). -/
def rgbPixel (r g b : Byte) (d : DecState) : Pixel := ⟨r, g, b, d.prev.a⟩

/-- `INDEX`: the cached colour, or `EMPTY` if the slot was never written (R206). -/
def indexPixel (idx : Slot) (d : DecState) : Pixel := cacheGet d.cache idx

/-- A pixel plus three channel deltas, each sum modulo 256, alpha unchanged (R207). -/
def addDeltas (dr dg db : Int) (p : Pixel) : Pixel :=
  ⟨u8 (p.r.toNat + dr), u8 (p.g.toNat + dg), u8 (p.b.toNat + db), p.a⟩

/-- `DIFF` (R207). -/
def diffPixel (dr dg db : Int) (d : DecState) : Pixel := addDeltas dr dg db d.prev

/-- `LUMA`: red and blue deltas are relative to the green one (R208). -/
def lumaPixel (dg drg dbg : Int) (d : DecState) : Pixel := addDeltas (dg + drg) dg (dg + dbg) d.prev

/-- `RUN`: the repetitions, clipped to what the quota still needs (R209; the spec's decision D11, log 12). -/
def runCount (length : Nat) (d : DecState) : Nat := min length (d.quota - d.po)

/-! ### Encoder: pixel fetch and delta predictor -/

/-- Pixel fetch (R162): alpha is 255 when the source has three channels. `none` where a byte was never placed. -/
def fetchPixel (e : EncState) : Option Pixel :=
  let base := e.pi * e.channels.toNat
  match e.inMem.read base, e.inMem.read (base + 1), e.inMem.read (base + 2) with
  | some r, some g, some b =>
    if e.channels = 4 then
      match e.inMem.read (base + 3) with
      | some a => some ⟨r, g, b, a⟩
      | none => none
    else some ⟨r, g, b, 255⟩
  | _, _, _ => none

/-- A channel delta wrapped to the signed 8-bit range (R168). -/
def delta (x p : Byte) : Int := s8 ((x.toNat : Int) - p.toNat)

end Sys2Proof.Machine
end

