-- ==== Sys2Proof/Machine/Flags.lean ====
section
/-! DEFINITION. The machine has no flags (R41): no instruction sets or tests one. What stands here are the conditions
R41 names, computed afresh and stored nowhere. -/

namespace Sys2Proof.Machine

/-- The cache slot at the pixel's hash equals the pixel exactly (R167). -/
abbrev cacheHit (e : EncState) (px : Pixel) : Prop := cacheGet e.cache (pixelHash px) = px

/-- The `DIFF` condition (R169). -/
abbrev diffFits (dr dg db : Int) : Prop :=
  (-2 ≤ dr ∧ dr ≤ 1) ∧ (-2 ≤ dg ∧ dg ≤ 1) ∧ (-2 ≤ db ∧ db ≤ 1)

/-- The `LUMA` condition, tested after `DIFF` failed (R170). -/
abbrev lumaFits (dg drg dbg : Int) : Prop :=
  (-32 ≤ dg ∧ dg ≤ 31) ∧ (-8 ≤ drg ∧ drg ≤ 7) ∧ (-8 ≤ dbg ∧ dbg ≤ 7)

/-- The loop condition of the pixel pass (R201): payload remains and the quota is not met. -/
abbrev decMore (d : DecState) : Prop := d.rp < d.pend ∧ d.po < d.quota

/-- The loop condition of the encoder (R160). -/
abbrev encMore (e : EncState) : Prop := e.pi < e.quota

/-- A legal channel count (R94, R139, R161). -/
abbrev channelsOk (c : Byte) : Prop := c = 3 ∨ c = 4

end Sys2Proof.Machine
end

