-- ==== Sys2Proof/Machine/Framing.lean ====
section
/-! DEFINITION. Header and framing (40_framing.md): the encoder's two writes and the decoder's stream synchroniser. -/

namespace Sys2Proof.Machine

/-! ### Encode side -/

/-- The 14 header bytes (R91). -/
def headerBytes (w h : Word32) (c cs : Byte) : List Byte :=
  Config.magic ++ be32 w ++ be32 h ++ [c] ++ [cs]

namespace EncState

/-- `HDR_WRITE` (R130). -/
def hdrWrite (e : EncState) : EncState :=
  e.append (headerBytes e.width e.height e.channels e.colorspace)

/-- `TRL_WRITE` (R131). -/
def trlWrite (e : EncState) : EncState := e.append Config.trailer

end EncState

/-! ### Decode side: the stream synchroniser (R133 to R140) -/

/-- One part of an operation: a new engine state, or a stop. -/
abbrev DecOutcome := Host.Outcome DecState Fault Refusal

/-- Run `f` after `x`, unless `x` stopped or raised: no statement after a `raise` executes (R13, R251). -/
def thenBusy (x : DecOutcome) (f : DecState → DecOutcome) : DecOutcome :=
  match x with
  | .next d => if d.status = .busy then f d else .next d
  | .fault r => .fault r
  | .refused r => .refused r

/-- What the trailer scan finds. -/
inductive ScanResult where
  | found (p : Nat)
  | notFound
  | unplaced
  deriving DecidableEq, Repr

/-- The scan over `n` windows of 8 bytes, the first at `p`, each one byte further; the first match wins (R137). -/
def scanFrom (m : Memory) : Nat → Nat → ScanResult
  | 0, _ => .notFound
  | n + 1, p =>
    match m.readBytes p 8 with
    | none => .unplaced
    | some w => if w = Config.trailer then .found p else scanFrom m n (p + 1)

namespace DecState

/-- `LEN_CHECK` (R134). -/
def lenCheck (d : DecState) : DecOutcome :=
  if d.inLen < 22 then .next (d.raise .tooSmall) else .next d

/-- `MAGIC_CHECK` (R135). -/
def magicCheck (d : DecState) : DecOutcome :=
  match d.inMem.readBytes 0 4 with
  | none => .fault .inputNotPlaced
  | some bs => if bs = Config.magic then .next d else .next (d.raise .magic)

/-- `HDR_PARSE` (R136). -/
def hdrParse (d : DecState) : DecOutcome :=
  match d.inMem.readBytes 4 4, d.inMem.readBytes 8 4, d.inMem.read 12, d.inMem.read 13 with
  | some w, some h, some c, some cs =>
    .next { d with
      width := BitVec.ofNat 32 (fromBe w)
      height := BitVec.ofNat 32 (fromBe h)
      channels := c
      colorspace := cs
      outLen := c.toNat * fromBe w * fromBe h }
  | _, _, _, _ => .fault .inputNotPlaced

/-- `TRL_SCAN` (R137): positions 14 to `DEC_INLEN - 8` (the last one is the spec's decision D9, log 12). -/
def trlScan (d : DecState) : DecOutcome :=
  match scanFrom d.inMem (d.inLen - 21) 14 with
  | .found p => .next { d with found := true, pend := p }
  | .notFound => .next { d with found := false, pend := d.inLen }
  | .unplaced => .fault .inputNotPlaced

/-- `TRL_CHECK` (R138): kept as the spec keeps it, although it never raises (decision D10, log 12). -/
def trlCheck (d : DecState) : DecOutcome :=
  if d.found then
    match d.inMem.readBytes d.pend 8 with
    | none => .fault .inputNotPlaced
    | some w => if fromBe w = 1 then .next d else .next (d.raise .trailer)
  else .next d

/-- `CH_CHECK` (R139). -/
def chCheck (d : DecState) : DecOutcome :=
  if channelsOk d.channels then .next d else .next (d.raise .channels)

/-- `DEC_SYNC`: the six parts in order; the first failing check ends the operation (R133). -/
def sync (d : DecState) : DecOutcome :=
  thenBusy (thenBusy (thenBusy (thenBusy (thenBusy (lenCheck d) magicCheck) hdrParse) trlScan) trlCheck) chCheck

/-- An accepted `START_DEC` up to the pixel loop (R200): BUSY, the synchroniser, the working registers. -/
def start (d : DecState) : DecOutcome :=
  thenBusy (sync { d with status := .busy, err := none }) fun d => .next d.init

end DecState

end Sys2Proof.Machine
end

