-- ==== Sys2Proof/Machine/Encoder.lean ====
section
/-! DEFINITION. The encoder pipeline (41_encoder.md): checks, decision order, run counter, cache update, the pass. -/

namespace Sys2Proof.Machine

/-- The instruction emitted for a pixel that does not extend a run: the decision order of R164, in which a cache hit
comes first (R167), then `DIFF`, `LUMA`, `RGB` where alpha is unchanged (R168 to R171), else `RGBA` (R172). -/
def emission (e : EncState) (px : Pixel) : Instr :=
  if cacheHit e px then .index (pixelHash px)
  else if px.a = e.prev.a then
    let dr := delta px.r e.prev.r
    let dg := delta px.g e.prev.g
    let db := delta px.b e.prev.b
    if diffFits dr dg db then .diff dr dg db
    else if lumaFits dg (dr - dg) (db - dg) then .luma dg (dr - dg) (db - dg)
    else .rgb px.r px.g px.b
  else .rgba px.r px.g px.b px.a

namespace EncState

/-- Precondition checks (R161): size first (the spec's decision D6, log 12), then channels. -/
def check (e : EncState) : Option EncCause :=
  if e.inLen < e.channels.toNat * e.width.toNat * e.height.toNat then some .size
  else if channelsOk e.channels then none
  else some .channels

/-- `RUN_EXTEND` (R165): no cache store (the spec's decision D8, log 12). -/
def runExtend (e : EncState) : EncState :=
  if e.run + 1 = 62 then { (e.append (encode (.run 62))) with run := 0 }
  else { e with run := e.run + 1 }

/-- `RUN_FLUSH` (R166) and `ENC_FINAL_FLUSH` (R174). -/
def runFlush (e : EncState) : EncState :=
  if 0 < e.run then { (e.append (encode (.run e.run))) with run := 0 } else e

/-- `UPDATE` (R173). -/
def update (px : Pixel) (e : EncState) : EncState :=
  { e with cache := cacheStore e.cache px, prev := px }

/-- The step for one fetched pixel (R164). -/
def pixelStep (px : Pixel) (e : EncState) : EncState :=
  if px = e.prev then e.runExtend
  else ((e.runFlush).append (encode (emission e px))).update px

/-- The end of the pass (R174, R175). -/
def finish (e : EncState) : EncState :=
  let e' := e.runFlush.trlWrite
  { e' with outLen := e'.wp, status := .done }

/-- An accepted `START_ENC` up to the pixel loop (R160). -/
def start (e : EncState) : EncState :=
  let e' := { e with status := .busy, err := none }
  match e'.check with
  | some c => e'.raise c
  | none => e'.init.hdrWrite

/-- One move of ENC: one pixel, or the end of the pass; nothing when it is not BUSY (R160, R14). -/
def move (e : EncState) : Host.Outcome EncState Fault Refusal :=
  if e.status = .busy then
    if encMore e then
      match fetchPixel e with
      | some px => .next { (e.pixelStep px) with pi := e.pi + 1 }
      | none => .fault .inputNotPlaced
    else .next e.finish
  else .next e

end EncState

end Sys2Proof.Machine
end

