-- ==== Sys2Proof/Machine/HostPort.lean ====
section
/-! DEFINITION. The host's side of the block: the two commands (R21), the access rights of R47, hardware reset (R280). -/

namespace Sys2Proof.Machine

/-- What a host read may see. -/
inductive ReadRight where
  /-- the read is allowed and returns this -/
  | value (v : Nat)
  /-- the location holds an unspecified value (U1, R252) -/
  | unspecified
  /-- the host must not read it now (R284, U6) -/
  | forbidden
  deriving DecidableEq, Repr

/-- A result of an engine: readable when DONE (R47), not to be read while BUSY (R284), otherwise unspecified or not
valid (R29, R32, R252; log 7). -/
def resultRight (st : Status) (v : Nat) : ReadRight :=
  match st with
  | .done => .value v
  | .busy => .forbidden
  | .idle => .unspecified
  | .error => .unspecified

/-- The registers as the host reads them (R47). -/
def regRight (r : HostReg) (s : State) : ReadRight :=
  match r with
  | .encWidth => .value s.enc.width.toNat
  | .encHeight => .value s.enc.height.toNat
  | .encChannels => .value s.enc.channels.toNat
  | .encColorspace => .value s.enc.colorspace.toNat
  | .encInLen => .value s.enc.inLen
  | .encStatus => .value (statusCode s.enc.status)
  | .encErr => .value (encErrCode s.enc.err)
  | .encOutLen => resultRight s.enc.status s.enc.outLen
  | .decInLen => .value s.dec.inLen
  | .decStatus => .value (statusCode s.dec.status)
  | .decErr => .value (decErrCode s.dec.err)
  | .decWidth => resultRight s.dec.status s.dec.width.toNat
  | .decHeight => resultRight s.dec.status s.dec.height.toNat
  | .decChannels => resultRight s.dec.status s.dec.channels.toNat
  | .decColorspace => resultRight s.dec.status s.dec.colorspace.toNat
  | .decOutLen => resultRight s.dec.status s.dec.outLen

/-- The width in bits of a register whose value may be unspecified; `none` is an exact natural number (R29, R32). -/
def regWidth : HostReg → Option Nat
  | .encWidth => some 32
  | .encHeight => some 32
  | .encChannels => some 8
  | .encColorspace => some 8
  | .encInLen => none
  | .encStatus => some 2
  | .encErr => some 8
  | .encOutLen => none
  | .decInLen => none
  | .decStatus => some 2
  | .decErr => some 8
  | .decWidth => some 32
  | .decHeight => some 32
  | .decChannels => some 8
  | .decColorspace => some 8
  | .decOutLen => none

/-- A byte of a space that may hold no value. -/
def byteRight : Option Byte → ReadRight
  | some b => .value b.toNat
  | none => .unspecified

/-- A byte of an output space: valid below the length, when DONE (R47, R60, R72). -/
def outByteRight (st : Status) (len addr : Nat) (b : Option Byte) : ReadRight :=
  match st with
  | .done => if addr < len then byteRight b else .unspecified
  | .busy => .forbidden
  | .idle => .unspecified
  | .error => .unspecified

/-- The memory spaces as the host reads them (R47). -/
def memRight (sp : Space) (addr : Nat) (s : State) : ReadRight :=
  match sp with
  | .encIn => byteRight (s.enc.inMem.read addr)
  | .decIn => byteRight (s.dec.inMem.read addr)
  | .encOut => outByteRight s.enc.status s.enc.outLen addr (s.enc.outMem.read addr)
  | .decOut => outByteRight s.dec.status s.dec.outLen addr (s.dec.outMem.read addr)

/-- A free value of a given width (log 7). -/
def freeValue (width : Option Nat) (n : Nat) : Nat :=
  match width with
  | some w => Config.freeNat n % 2 ^ w
  | none => Config.freeNat n

/-- Deliver the result of a host read. -/
def hostRead (right : ReadRight) (width : Option Nat) (s : State) : Host.Outcome State Fault Refusal :=
  match right with
  | .value v => .next { s with hostData := v }
  | .unspecified => .next { s with hostData := freeValue width s.freeCount, freeCount := s.freeCount + 1 }
  | .forbidden => .refused .hostReadWhileBusy

/-- A host write to ENC: offered only while ENC is not BUSY (R22, R47, R284). -/
def hostWriteEnc (e : EncState) (s : State) : Host.Outcome State Fault Refusal :=
  if s.enc.status = .busy then .refused .hostWriteWhileBusy else .next { s with enc := e }

/-- A host write to DEC: offered only while DEC is not BUSY (R31, R47, R284). -/
def hostWriteDec (d : DecState) (s : State) : Host.Outcome State Fault Refusal :=
  if s.dec.status = .busy then .refused .hostWriteWhileBusy else .next { s with dec := d }

/-- `START_ENC` (R21): accepted when not BUSY, otherwise without effect. -/
def startEnc (s : State) : Host.Outcome State Fault Refusal :=
  if s.enc.status = .busy then .next s else .next { s with enc := s.enc.start }

/-- `START_DEC` (R21): accepted when not BUSY, otherwise without effect. -/
def startDec (s : State) : Host.Outcome State Fault Refusal :=
  if s.dec.status = .busy then .next s else mapOutcome (fun d => { s with dec := d }) s.dec.start

/-- Hardware reset (R280): both engines as after power-on; an operation in progress is abandoned. The contents of the
buffers are then unspecified: they lose their values (log 13). -/
def hardReset (s : State) : State := { s with enc := EncState.reset, dec := DecState.reset }

/-- The effect of one host command. -/
def hostExec (c : HostCmd) (s : State) : Host.Outcome State Fault Refusal :=
  match c with
  | .writeEncWidth v => hostWriteEnc { s.enc with width := v } s
  | .writeEncHeight v => hostWriteEnc { s.enc with height := v } s
  | .writeEncChannels v => hostWriteEnc { s.enc with channels := v } s
  | .writeEncColorspace v => hostWriteEnc { s.enc with colorspace := v } s
  | .writeEncInLen n => hostWriteEnc { s.enc with inLen := n } s
  | .writeDecInLen n => hostWriteDec { s.dec with inLen := n } s
  | .writeEncIn addr bytes => hostWriteEnc { s.enc with inMem := s.enc.inMem.writeBytes addr bytes } s
  | .writeDecIn addr bytes => hostWriteDec { s.dec with inMem := s.dec.inMem.writeBytes addr bytes } s
  | .startEnc => startEnc s
  | .startDec => startDec s
  | .readReg r => hostRead (regRight r s) (regWidth r) s
  | .readMem sp addr => hostRead (memRight sp addr s) (some 8) s
  | .hardReset => .next (hardReset s)

/-- One move of the host: the next command of its script, or nothing when there is none. -/
def hostMove (s : State) : Host.Outcome State Fault Refusal :=
  match s.host with
  | [] => .next s
  | c :: cs => hostExec c { s with host := cs }

end Sys2Proof.Machine
end

