-- ==== Sys2Proof/Machine/Delta.lean ====
section
/-! DEFINITION. The delta instructions `DIFF` (R207) and `LUMA` (R208). -/

namespace Sys2Proof.Machine

/-- `DIFF` (R207). -/
def execDiff (dr dg db : Int) (s : State) : Host.Outcome State Fault Refusal :=
  .next { s with dec := (s.dec.emit (diffPixel dr dg db s.dec)).advance 1 }

/-- `LUMA` (R208). -/
def execLuma (dg drg dbg : Int) (s : State) : Host.Outcome State Fault Refusal :=
  .next { s with dec := (s.dec.emit (lumaPixel dg drg dbg s.dec)).advance 2 }

end Sys2Proof.Machine
end

