-- ==== Sys2Proof/Machine/Index.lean ====
section
/-! DEFINITION. The colour-cache instruction `INDEX` (R206). -/

namespace Sys2Proof.Machine

/-- `INDEX` (R206). -/
def execIndex (idx : Slot) (s : State) : Host.Outcome State Fault Refusal :=
  .next { s with dec := (s.dec.emit (indexPixel idx s.dec)).advance 1 }

end Sys2Proof.Machine
end

