-- ==== Sys2Proof/Machine/Literal.lean ====
section
/-! DEFINITION. The literal instructions `RGB` (R204) and `RGBA` (R205). -/

namespace Sys2Proof.Machine

/-- `RGB` (R204). -/
def execRgb (r g b : Byte) (s : State) : Host.Outcome State Fault Refusal :=
  .next { s with dec := (s.dec.emit (rgbPixel r g b s.dec)).advance 4 }

/-- `RGBA` (R205). -/
def execRgba (r g b a : Byte) (s : State) : Host.Outcome State Fault Refusal :=
  .next { s with dec := (s.dec.emit ⟨r, g, b, a⟩).advance 5 }

end Sys2Proof.Machine
end

