-- ==== Sys2Proof/Machine/Run.lean ====
section
/-! DEFINITION. The run instruction `RUN` (R209). -/

namespace Sys2Proof.Machine

/-- `RUN` (R209): the previous pixel, as often as the length says and the quota still needs. -/
def execRun (length : Nat) (s : State) : Host.Outcome State Fault Refusal :=
  .next { s with dec := (s.dec.emitTimes (runCount length s.dec) s.dec.prev).advance 1 }

end Sys2Proof.Machine
end

