-- ==== Sys2Proof/Machine/Pass.lean ====
section
/-! DEFINITION. The decoder's pixel pass (42_decoder.md): instruction fetch, truncation, the loop and its end. -/

namespace Sys2Proof.Machine

/-- The payload bytes of the instruction at `DEC_RP`: as many as its class needs, but none at or beyond `DEC_PEND`
(R202, R203). `none` where a byte was never placed. -/
def fetchInstr (d : DecState) : Option (List Byte) :=
  match d.inMem.read d.rp with
  | none => none
  | some b0 => d.inMem.readBytes d.rp (min (classify b0).length (d.pend - d.rp))

namespace DecState

/-- An instruction cut off by the end of the payload is not executed (R203; the spec's decision D12, log 12). -/
def skipTruncated (d : DecState) : DecState := { d with rp := d.pend }

/-- The end of the pass: the final count check (R212). -/
def finish (d : DecState) : DecState :=
  if d.po < d.quota then d.raise .insufficient else { d with status := .done }

end DecState

/-- `DEC_STEP`: one instruction (R201 to R211). -/
def decInstr (s : State) : Host.Outcome State Fault Refusal :=
  match fetchInstr s.dec with
  | none => .fault .inputNotPlaced
  | some bs =>
    match decode bs with
    | .ok (i, _) => exec i s
    | .error _ => .next { s with dec := s.dec.skipTruncated }

/-- One move of DEC: one instruction, or the end of the pass; nothing when it is not BUSY (R200, R14). -/
def decMove (s : State) : Host.Outcome State Fault Refusal :=
  if s.dec.status = .busy then
    if decMore s.dec then decInstr s else .next { s with dec := s.dec.finish }
  else .next s

end Sys2Proof.Machine
end

