-- ==== Sys2Proof/Machine/Agents.lean ====
section
/-! DEFINITION. Which agent moves (R20, log 4) and what its move is. -/

namespace Sys2Proof.Machine

/-- The agent that moves: the head of the schedule; with no schedule, a BUSY engine before the host (log 4). -/
def nextAgent (s : State) : Agent :=
  match s.turns with
  | a :: _ => a
  | [] => if s.dec.status = .busy then .dec else if s.enc.status = .busy then .enc else .host

/-- The schedule after a move. -/
def popTurn (s : State) : State := { s with turns := s.turns.tail }

/-- One move of ENC in the whole block: nothing else changes (R20). -/
def encMove (s : State) : Host.Outcome State Fault Refusal :=
  mapOutcome (fun e => { s with enc := e }) s.enc.move

/-- The move of an agent. -/
def agentMove (a : Agent) (s : State) : Host.Outcome State Fault Refusal :=
  match a with
  | .enc => encMove s
  | .dec => decMove s
  | .host => hostMove s

/-- The decoder with an instruction placed where it fetches next, so that its next move runs it: BUSY, three or four
channels, the payload reaching past the instruction's longest form, the quota not met (log 6). What already allows
the fetch stays as it is. -/
def placeInstr (bs : List Byte) (d : DecState) : DecState :=
  let d := { d with
    status := .busy
    err := none
    inMem := d.inMem.writeBytes d.rp bs
    pend := max d.pend (d.rp + bs.length)
    inLen := max d.inLen (max d.pend (d.rp + bs.length)) }
  let d := if channelsOk d.channels then d else { d with channels := 4 }
  if d.po < d.quota then d
  else { d with po := 0, width := 62, height := 1, outLen := d.channels.toNat * 62 }

end Sys2Proof.Machine
end

