-- ==== Sys2Proof/Machine/Step.lean ====
section
/-! DEFINITION. One step of the whole block: the agent whose turn it is makes one move. -/

namespace Sys2Proof.Machine

/-- One step (R14, R20). -/
def step (s : State) : Host.Outcome State Fault Refusal :=
  agentMove (nextAgent s) (popTurn s)

/-- The state with an opcode-table word stored where DEC fetches its next instruction, DEC in its pixel loop and to
move next (log 6). -/
def State.withFetchWord (s : State) (nbits w : Nat) : State :=
  { s with dec := placeInstr (tableBytes nbits w) s.dec, turns := .dec :: s.turns }

end Sys2Proof.Machine
end

