-- ==== Sys2Proof/Machine/Whole.lean ====
section
/-! DEFINITION. The two whole operations as the spec gives them in one piece: `encode` (R177) and `decode` (R215), on
lists of bytes. The machine does not use them; statements compare it with them. -/

namespace Sys2Proof.Machine.Whole

/-! ### `encode` (R177) -/

/-- The variables of the encoder's pass. -/
structure EncPass where
  prev : Pixel
  cache : Cache
  run : Nat
  out : List Byte
  deriving DecidableEq, Repr

/-- Pixel `i` of a buffer with `c` channels (R62, R162). -/
def pixelAt (pix : List Byte) (c : Byte) (i : Nat) : Pixel :=
  ⟨pix.getD (i * c.toNat) 0, pix.getD (i * c.toNat + 1) 0, pix.getD (i * c.toNat + 2) 0,
    if c = 4 then pix.getD (i * c.toNat + 3) 0 else 255⟩

/-- The bytes of a `RUN` of the open run, if there is one. -/
def runBytes (run : Nat) : List Byte := if 0 < run then [0xC0 ||| BitVec.ofNat 8 (run - 1)] else []

/-- The bytes emitted for a pixel that is not the previous one. -/
def emitBytes (px prev : Pixel) (cache : Cache) : List Byte :=
  let h := pixelHash px
  if cacheGet cache h = px then [BitVec.ofNat 8 h.val]
  else if px.a = prev.a then
    let dr := s8 ((px.r.toNat : Int) - prev.r.toNat)
    let dg := s8 ((px.g.toNat : Int) - prev.g.toNat)
    let db := s8 ((px.b.toNat : Int) - prev.b.toNat)
    if (-2 ≤ dr ∧ dr ≤ 1) ∧ (-2 ≤ dg ∧ dg ≤ 1) ∧ (-2 ≤ db ∧ db ≤ 1) then
      [0x40 ||| u8 (dr + 2) <<< 4 ||| u8 (dg + 2) <<< 2 ||| u8 (db + 2)]
    else
      let drg := dr - dg
      let dbg := db - dg
      if (-32 ≤ dg ∧ dg ≤ 31) ∧ (-8 ≤ drg ∧ drg ≤ 7) ∧ (-8 ≤ dbg ∧ dbg ≤ 7) then
        [0x80 ||| u8 (dg + 32), u8 (drg + 8) <<< 4 ||| u8 (dbg + 8)]
      else [0xFE, px.r, px.g, px.b]
  else [0xFF, px.r, px.g, px.b, px.a]

/-- One pixel of the pass. -/
def encodePixel (px : Pixel) (p : EncPass) : EncPass :=
  if px = p.prev then
    if p.run + 1 = 62 then { p with run := 0, out := p.out ++ [0xFD] }
    else { p with run := p.run + 1 }
  else
    { prev := px
      cache := p.cache.set (pixelHash px) px
      run := 0
      out := p.out ++ runBytes p.run ++ emitBytes px p.prev p.cache }

/-- `n` pixels, the first with index `i`. -/
def encodeFrom (pix : List Byte) (c : Byte) : Nat → Nat → EncPass → EncPass
  | 0, _, p => p
  | n + 1, i, p => encodeFrom pix c n (i + 1) (encodePixel (pixelAt pix c i) p)

/-- The header (R91). -/
def header (w h : Word32) (c cs : Byte) : List Byte :=
  [0x71, 0x6F, 0x69, 0x66] ++ be32 w ++ be32 h ++ [c, cs]

/-- `encode(pix, inlen, W, H, C, CS)` with `inlen` the length of `pix` (R177). -/
def encode (pix : List Byte) (w h : Word32) (c cs : Byte) : Except EncCause (List Byte) :=
  if pix.length < c.toNat * w.toNat * h.toNat then .error .size
  else if c ≠ 3 ∧ c ≠ 4 then .error .channels
  else
    let p := encodeFrom pix c (w.toNat * h.toNat) 0
      { prev := ⟨0, 0, 0, 255⟩, cache := Vector.replicate 64 ⟨0, 0, 0, 0⟩, run := 0, out := header w h c cs }
    .ok (p.out ++ runBytes p.run ++ [0, 0, 0, 0, 0, 0, 0, 1])

/-! ### `decode` (R215) -/

/-- The variables of the decoder's pass. -/
structure DecPass where
  rp : Nat
  po : Nat
  prev : Pixel
  cache : Cache
  out : List Byte
  deriving DecidableEq, Repr

/-- `emit(px)`. -/
def emit (c : Byte) (px : Pixel) (p : DecPass) : DecPass :=
  { p with
    out := p.out ++ (if c = 4 then [px.r, px.g, px.b, px.a] else [px.r, px.g, px.b])
    cache := p.cache.set (pixelHash px) px
    prev := px
    po := p.po + 1 }

/-- `emit(px)`, `k` times. -/
def emitTimes (c : Byte) : Nat → Pixel → DecPass → DecPass
  | 0, _, p => p
  | k + 1, px, p => emitTimes c k px (emit c px p)

/-- `rp <- rp + l`. -/
def skip (l : Nat) (p : DecPass) : DecPass := { p with rp := p.rp + l }

/-- One turn of the loop. -/
def decodeStep (bs : List Byte) (c : Byte) (pend quota : Nat) (p : DecPass) : DecPass :=
  let b0 := bs.getD p.rp 0
  let b1 := bs.getD (p.rp + 1) 0
  let b2 := bs.getD (p.rp + 2) 0
  let b3 := bs.getD (p.rp + 3) 0
  let b4 := bs.getD (p.rp + 4) 0
  let lo : Byte := b0 &&& 0x3F
  let bits (v : Byte) (at_ w : Nat) : Int := ((v.toNat / 2 ^ at_ % 2 ^ w : Nat) : Int)
  let prev := p.prev
  if b0 = 0xFE then
    if p.rp + 4 > pend then { p with rp := pend }
    else skip 4 (emit c ⟨b1, b2, b3, prev.a⟩ p)
  else if b0 = 0xFF then
    if p.rp + 5 > pend then { p with rp := pend }
    else skip 5 (emit c ⟨b1, b2, b3, b4⟩ p)
  else if b0 &&& 0xC0 = 0x00 then
    skip 1 (emit c (p.cache.toList.getD lo.toNat ⟨0, 0, 0, 0⟩) p)
  else if b0 &&& 0xC0 = 0x40 then
    skip 1 (emit c ⟨u8 (prev.r.toNat + bits lo 4 2 - 2), u8 (prev.g.toNat + bits lo 2 2 - 2),
      u8 (prev.b.toNat + bits lo 0 2 - 2), prev.a⟩ p)
  else if b0 &&& 0xC0 = 0x80 then
    if p.rp + 2 > pend then { p with rp := pend }
    else
      let dg : Int := (lo.toNat : Int) - 32
      skip 2 (emit c ⟨u8 (prev.r.toNat + dg + bits b1 4 4 - 8), u8 (prev.g.toNat + dg),
        u8 (prev.b.toNat + dg + bits b1 0 4 - 8), prev.a⟩ p)
  else skip 1 (emitTimes c (min (lo.toNat + 1) (quota - p.po)) prev p)

/-- The loop; every turn moves `rp`, so `pend` turns are enough fuel (R291). -/
def decodeLoop (bs : List Byte) (c : Byte) (pend quota : Nat) : Nat → DecPass → DecPass
  | 0, p => p
  | n + 1, p =>
    if p.rp < pend ∧ p.po < quota then decodeLoop bs c pend quota n (decodeStep bs c pend quota p) else p

/-- The end of the payload: the first window equal to the trailer, from 14 on, or the end of the input. -/
def payloadEnd (bs : List Byte) : Nat :=
  ((List.range' 14 (bs.length - 21)).find? fun p => (bs.drop p).take 8 = [0, 0, 0, 0, 0, 0, 0, 1]).getD bs.length

/-- What `decode` returns. -/
structure Image where
  data : List Byte
  width : Word32
  height : Word32
  channels : Byte
  colorspace : Byte
  deriving DecidableEq, Repr

/-- `decode(bs, n)` with `n` the length of `bs` (R215). -/
def decode (bs : List Byte) : Except DecCause Image :=
  if bs.length < 22 then .error .tooSmall
  else if bs.take 4 ≠ [0x71, 0x6F, 0x69, 0x66] then .error .magic
  else
    let w : Word32 := BitVec.ofNat 32 (fromBe ((bs.drop 4).take 4))
    let h : Word32 := BitVec.ofNat 32 (fromBe ((bs.drop 8).take 4))
    let c := bs.getD 12 0
    let cs := bs.getD 13 0
    let pend := payloadEnd bs
    if c ≠ 3 ∧ c ≠ 4 then .error .channels
    else
      let quota := w.toNat * h.toNat
      let p := decodeLoop bs c pend quota pend
        { rp := 14, po := 0, prev := ⟨0, 0, 0, 255⟩, cache := Vector.replicate 64 ⟨0, 0, 0, 0⟩, out := [] }
      if p.po < quota then .error .insufficient
      else .ok ⟨p.out, w, h, c, cs⟩

end Sys2Proof.Machine.Whole
end

