-- ==== Sys2Proof/Safety.lean ====
section
/-! DEFINITION. What counts as a safe state and a safe step, in the terms the statements use: the canonical form of
the memories, the invariants of the two engines, and the effect of emitting pixels. -/

namespace Sys2Proof.Machine

/-- The four spaces are in canonical form. -/
def State.MemOk (s : State) : Prop :=
  s.enc.inMem.wf ∧ s.enc.outMem.wf ∧ s.dec.inMem.wf ∧ s.dec.outMem.wf

/-- The bytes `0 .. n-1` of a space have a value. -/
def Memory.Placed (m : Memory) (n : Nat) : Prop := ∀ a, a < n → (m.read a).isSome

/-- What holds of the encoder engine between steps. -/
structure EncState.Inv (e : EncState) : Prop where
  /-- `ENC_RUN` is 0 to 61 between steps (R24, R179 (a)). -/
  run_le : e.run ≤ 61
  /-- `ENC_ERR` names a cause exactly in status `ERROR` (R27). -/
  err_iff : e.status = .error ↔ e.err.isSome
  /-- Both checks of R161 have passed while the pass runs. -/
  checked : e.status = .busy → channelsOk e.channels ∧ e.channels.toNat * e.width.toNat * e.height.toNat ≤ e.inLen
  /-- `ENC_PI` is 0 to `W*H` (R25). -/
  pi_le : e.status = .busy → e.pi ≤ e.quota
  /-- The header is written, and a pixel has cost at most `C+1` bytes (R180). -/
  wp_bound : e.status = .busy →
    14 ≤ e.wp ∧ e.wp + (if 0 < e.run then 1 else 0) ≤ 14 + e.pi * (e.channels.toNat + 1)
  /-- With three channels only opaque pixels and `EMPTY` are held (R179 (c)). -/
  opaque_prev : e.status = .busy → e.channels = 3 → e.prev.a = 255
  opaque_cache : e.status = .busy → e.channels = 3 →
    ∀ i, cacheGet e.cache i = Config.empty ∨ (cacheGet e.cache i).a = 255
  /-- The previous pixel is the initial one or stands in its slot (R179 (f)). -/
  prev_cached : e.status = .busy → e.prev = Config.prevInit ∨ cacheGet e.cache (pixelHash e.prev) = e.prev
  /-- Every byte up to the write pointer has been written (R176). -/
  written : e.status = .busy ∨ e.status = .done → e.outMem.Placed e.wp
  /-- `ENC_OUTLEN` is the final write pointer (R29), at least 22 (R90). -/
  done_len : e.status = .done → e.outLen = e.wp ∧ 22 ≤ e.outLen

/-- What holds of the decoder engine between steps. -/
structure DecState.Inv (d : DecState) : Prop where
  /-- `DEC_ERR` names a cause exactly in status `ERROR` (R39). -/
  err_iff : d.status = .error ↔ d.err.isSome
  /-- `DEC_ERR_TRAILER` is never reported (R138, R245). -/
  err_ne_trailer : d.err ≠ some .trailer
  /-- Three or four channels while the pass runs and when it is done (R32, R140). -/
  channels_ok : d.status = .busy ∨ d.status = .done → channelsOk d.channels
  /-- `14 <= DEC_RP <= DEC_PEND <= DEC_INLEN` while the pass runs (R35, R36). -/
  rp_range : d.status = .busy → 14 ≤ d.rp ∧ d.rp ≤ d.pend ∧ d.pend ≤ d.inLen
  /-- Never more pixels than the quota (R37, R212). -/
  po_le : d.status = .busy → d.po ≤ d.quota
  /-- Exactly the quota when done (R212). -/
  done_po : d.status = .done → d.po = d.quota
  /-- `DEC_OUTLEN` is the product of R32. -/
  out_len : d.status = .busy ∨ d.status = .done →
    d.outLen = d.channels.toNat * d.width.toNat * d.height.toNat
  /-- Every byte of the pixels emitted so far has been written (R67, R210). -/
  written : d.status = .busy ∨ d.status = .done → d.outMem.Placed (d.po * d.channels.toNat)

/-- The invariant of the whole block. -/
structure State.Inv (s : State) : Prop where
  mem : s.MemOk
  enc : s.enc.Inv
  dec : s.dec.Inv

/-- From `s` to `t`, `k` pixels equal to `px` were emitted by an instruction of `len` bytes, and nothing else
happened (R210, R211). -/
structure Emitted (k : Nat) (px : Pixel) (len : Nat) (s t : State) : Prop where
  /-- the new previous pixel -/
  prev : t.dec.prev = px
  /-- the pixel stands in the slot of its hash -/
  slot : cacheGet t.dec.cache (pixelHash px) = px
  /-- every other slot is as it was -/
  other_slots : ∀ i, i ≠ pixelHash px → cacheGet t.dec.cache i = cacheGet s.dec.cache i
  /-- the pixels are counted -/
  po : t.dec.po = s.dec.po + k
  /-- the next instruction is at `A + L` -/
  rp : t.dec.rp = s.dec.rp + len
  /-- four bytes a pixel with four channels, r, g, b, a -/
  out_four : s.dec.channels = 4 →
    ∀ j, j < k → t.dec.outMem.readBytes ((s.dec.po + j) * 4) 4 = some [px.r, px.g, px.b, px.a]
  /-- three bytes a pixel with three channels, r, g, b -/
  out_three : s.dec.channels = 3 →
    ∀ j, j < k → t.dec.outMem.readBytes ((s.dec.po + j) * 3) 3 = some [px.r, px.g, px.b]
  /-- every other byte of `DEC_OUT` reads as before -/
  out_frame : ∀ a, a < s.dec.po * s.dec.channels.toNat ∨ (s.dec.po + k) * s.dec.channels.toNat ≤ a →
    t.dec.outMem.read a = s.dec.outMem.read a
  /-- every other register, the input space, the encoder engine and the host's side are as they were -/
  rest : t = { s with dec := { s.dec with
    prev := t.dec.prev, cache := t.dec.cache, po := t.dec.po, rp := t.dec.rp, outMem := t.dec.outMem } }

/-- From `e` to `e'`, exactly `bs` was appended to `ENC_OUT` (R176): the bytes, the pointer, every other byte. -/
structure Appended (bs : List Byte) (e e' : EncState) : Prop where
  wp : e'.wp = e.wp + bs.length
  bytes : e'.outMem.readBytes e.wp bs.length = some bs
  frame : ∀ a, a < e.wp ∨ e.wp + bs.length ≤ a → e'.outMem.read a = e.outMem.read a

end Sys2Proof.Machine
end

