-- ==== Sys2Proof/Certificates/Slice0/Obligations.lean ====
section
/-! DEFINITION. The statements for the provers. Each docstring names the rule it formalises. -/

open Sys2Proof Sys2Proof.Machine

/-! ### Reset -/

/-- R46, R280, the power-on column; the values are the spec's own decision D17. The working registers, which the spec
leaves unspecified there, are not mentioned. -/
def Obligations.ResetGivesPowerOnValues : Prop :=
  State.reset.enc.status = .idle ∧ State.reset.dec.status = .idle ∧
  encErrCode State.reset.enc.err = 0 ∧ decErrCode State.reset.dec.err = 0 ∧
  State.reset.enc.width = 0 ∧ State.reset.enc.height = 0 ∧ State.reset.enc.channels = 4 ∧
  State.reset.enc.colorspace = 0 ∧ State.reset.enc.inLen = 0 ∧ State.reset.enc.outLen = 0 ∧
  State.reset.dec.inLen = 0 ∧ State.reset.dec.width = 0 ∧ State.reset.dec.height = 0 ∧
  State.reset.dec.channels = 0 ∧ State.reset.dec.colorspace = 0 ∧ State.reset.dec.outLen = 0

/-- The invariant of Safety.lean holds after reset; that rests on the model's reset values (log 1, log 2). -/
def Obligations.ResetMeetsInvariant : Prop := State.reset.Inv

/-- R280 (the spec's decision D17): a hardware reset, in whatever state, leaves both engines with the power-on values
and the invariant; an operation in progress is abandoned. The working registers, which R280 calls unspecified, are fixed
here too: their values are the model's choice (log 1), as are the buffers without values (log 2, log 13). -/
def Obligations.HardResetAbandonsOperations : Prop :=
  ∀ s cs, nextAgent s = .host → s.host = .hardReset :: cs →
    ∃ t, step s = .next t ∧ t.enc = State.reset.enc ∧ t.dec = State.reset.dec ∧ t.Inv ∧ t.host = cs

/-! ### Numbers -/

/-- R9: the definition, the bound of the sum, the reductions that give the same result, the examples. -/
def Obligations.HashIsWeightedSumModulo64 : Prop :=
  (∀ p : Pixel,
    (pixelHash p).val = (p.r.toNat * 3 + p.g.toNat * 5 + p.b.toNat * 7 + p.a.toNat * 11) % 64 ∧
    p.r.toNat * 3 + p.g.toNat * 5 + p.b.toNat * 7 + p.a.toNat * 11 ≤ 6630 ∧
    (pixelHash p).val = (p.r.toNat * 3 + p.g.toNat * 5 + p.b.toNat * 7 + p.a.toNat * 11) % 256 % 64 ∧
    (pixelHash p).val =
      (p.r.toNat * 3 % 256 + p.g.toNat * 5 % 256 + p.b.toNat * 7 % 256 + p.a.toNat * 11 % 256) % 64 ∧
    (pixelHash p).val =
      (p.r.toNat * 3 % 64 + p.g.toNat * 5 % 64 + p.b.toNat * 7 % 64 + p.a.toNat * 11 % 64) % 64) ∧
  pixelHash ⟨0, 0, 0, 255⟩ = 53 ∧ pixelHash ⟨0, 0, 0, 0⟩ = 0 ∧ pixelHash ⟨255, 255, 255, 255⟩ = 38 ∧
  pixelHash ⟨10, 20, 30, 255⟩ = 9

/-! ### Encoding -/

/-- R98: how a first byte is classified, in order; the length that follows from the class; no other byte of the
instruction influences it. -/
def Obligations.FirstByteSelectsClassAndLength : Prop :=
  (∀ b : Byte, (b = 0xFE → classify b = .rgb) ∧ (b = 0xFF → classify b = .rgba) ∧
    (b ≠ 0xFE → b ≠ 0xFF →
      (b &&& 0xC0 = 0x00 → classify b = .index) ∧ (b &&& 0xC0 = 0x40 → classify b = .diff) ∧
      (b &&& 0xC0 = 0x80 → classify b = .luma) ∧ (b &&& 0xC0 = 0xC0 → classify b = .run))) ∧
  OpClass.rgb.length = 4 ∧ OpClass.rgba.length = 5 ∧ OpClass.index.length = 1 ∧
  OpClass.diff.length = 1 ∧ OpClass.luma.length = 2 ∧ OpClass.run.length = 1 ∧
  ∀ (b : Byte) (tl rest : List Byte) (i : Instr), decode (b :: tl) = .ok (i, rest) →
    i.length = (classify b).length ∧ rest.length + (classify b).length = tl.length + 1

/-- R107 (the spec marks it derived): the opcode map of the 256 first bytes, by ranges. -/
def Obligations.OpcodeMapByRanges : Prop :=
  ∀ b : Byte,
    (classify b = .index ↔ b.toNat ≤ 0x3F) ∧
    (classify b = .diff ↔ 0x40 ≤ b.toNat ∧ b.toNat ≤ 0x7F) ∧
    (classify b = .luma ↔ 0x80 ≤ b.toNat ∧ b.toNat ≤ 0xBF) ∧
    (classify b = .run ↔ 0xC0 ≤ b.toNat ∧ b.toNat ≤ 0xFD) ∧
    (classify b = .rgb ↔ b.toNat = 0xFE) ∧ (classify b = .rgba ↔ b.toNat = 0xFF)

/-- Words written out from R99 to R104 (vectors DV1, DV2, DV4, DV5, DV27, P1): each decodes to what it stands for. -/
def Obligations.ListedWordsDecode : Prop :=
  decode [0xFE, 0x0A, 0x14, 0x1E] = .ok (.rgb 10 20 30, []) ∧
  decode [0xFF, 0x0A, 0x14, 0x1E, 0x28] = .ok (.rgba 10 20 30 40, []) ∧
  decode [0b00110001] = .ok (.index 49, []) ∧
  decode [0b01111001] = .ok (.diff 1 0 (-1), []) ∧
  decode [0b10010110, 0b11011011] = .ok (.luma (-10) 5 3, []) ∧
  decode [0b11111101] = .ok (.run 62, [])

/-- R97 to R105, R110: decoding the bytes of a well-formed instruction gives it back, whatever follows. -/
def Obligations.DecodeInvertsEncode : Prop :=
  ∀ (i : Instr) (rest : List Byte), i.WellFormed → decode (encode i ++ rest) = .ok (i, rest)

/-- R97 to R107: what is decoded is well formed, and its own bytes are exactly the bytes taken. -/
def Obligations.EncodeInvertsDecode : Prop :=
  ∀ (bs : List Byte) (i : Instr) (rest : List Byte),
    decode bs = .ok (i, rest) → i.WellFormed ∧ encode i ++ rest = bs

/-- R107, R203: with a first byte, decoding fails exactly where operand bytes are missing; no byte value fails. -/
def Obligations.DecodeFailsOnlyOnMissingBytes : Prop :=
  decode [] = .error .noBytes ∧
  ∀ (b0 : Byte) (tl : List Byte),
    (tl.length + 1 < (classify b0).length → decode (b0 :: tl) = .error (.truncated (classify b0))) ∧
    ((classify b0).length ≤ tl.length + 1 → ∃ i, decode (b0 :: tl) = .ok (i, tl.drop ((classify b0).length - 1)))

/-! ### The six instructions -/

/-- R204, with R210: `RGB` runs in every state of the pixel loop and does this. -/
def Obligations.RgbEmitsLiteralKeepsAlpha : Prop :=
  ∀ (s : State) (r g b : Byte), channelsOk s.dec.channels →
    ∃ t, exec (.rgb r g b) s = .next t ∧ Emitted 1 ⟨r, g, b, s.dec.prev.a⟩ 4 s t

/-- R205, with R210. -/
def Obligations.RgbaEmitsLiteral : Prop :=
  ∀ (s : State) (r g b a : Byte), channelsOk s.dec.channels →
    ∃ t, exec (.rgba r g b a) s = .next t ∧ Emitted 1 ⟨r, g, b, a⟩ 5 s t

/-- R206, with R210: the slot is read before the store, and the store goes to the pixel's own hash. -/
def Obligations.IndexEmitsCachedPixel : Prop :=
  ∀ (s : State) (idx : Slot), channelsOk s.dec.channels →
    ∃ t, exec (.index idx) s = .next t ∧ Emitted 1 (cacheGet s.dec.cache idx) 1 s t

/-- R207, with R210: each channel sum modulo 256, alpha unchanged. -/
def Obligations.DiffAddsDeltasModulo256 : Prop :=
  ∀ (s : State) (dr dg db : Int), channelsOk s.dec.channels →
    ∃ t px, exec (.diff dr dg db) s = .next t ∧ Emitted 1 px 1 s t ∧
      (px.r.toNat : Int) = (s.dec.prev.r.toNat + dr) % 256 ∧
      (px.g.toNat : Int) = (s.dec.prev.g.toNat + dg) % 256 ∧
      (px.b.toNat : Int) = (s.dec.prev.b.toNat + db) % 256 ∧ px.a = s.dec.prev.a

/-- R208, with R210: red and blue deltas are relative to the green one. -/
def Obligations.LumaAddsRelativeDeltasModulo256 : Prop :=
  ∀ (s : State) (dg drg dbg : Int), channelsOk s.dec.channels →
    ∃ t px, exec (.luma dg drg dbg) s = .next t ∧ Emitted 1 px 2 s t ∧
      (px.r.toNat : Int) = (s.dec.prev.r.toNat + (dg + drg)) % 256 ∧
      (px.g.toNat : Int) = (s.dec.prev.g.toNat + dg) % 256 ∧
      (px.b.toNat : Int) = (s.dec.prev.b.toNat + (dg + dbg)) % 256 ∧ px.a = s.dec.prev.a

/-- R209, with R210: the previous pixel `min(length, DEC_QUOTA - DEC_PO)` times. The clipping is the spec's decision
D11 (log 12). -/
def Obligations.RunRepeatsPreviousPixel : Prop :=
  ∀ (s : State) (length : Nat), channelsOk s.dec.channels → (Instr.run length).WellFormed →
    s.dec.po < s.dec.width.toNat * s.dec.height.toNat →
    ∃ t, exec (.run length) s = .next t ∧
      Emitted (min length (s.dec.width.toNat * s.dec.height.toNat - s.dec.po)) s.dec.prev 1 s t

/-- R214 (the spec marks it derived): the channel count changes the output bytes and nothing else an instruction
does. -/
def Obligations.ChannelCountChangesOutputOnly : Prop :=
  ∀ (i : Instr) (s : State) (c : Byte), ∃ t t',
    exec i s = .next t ∧ exec i { s with dec := { s.dec with channels := c } } = .next t' ∧
    t' = { t with dec := { t.dec with channels := c, outMem := t'.dec.outMem } }

/-! ### The decoder's steps -/

/-- R200, R202: where the bytes fetched at `DEC_RP` decode to `i`, the step is `exec i`; around it the step does
nothing but take the turn (log 4). -/
def Obligations.StepRunsDecodedInstruction : Prop :=
  ∀ (s : State) (bs rest : List Byte) (i : Instr), nextAgent s = .dec → s.dec.status = .busy →
    s.dec.rp < s.dec.pend → s.dec.po < s.dec.quota →
    fetchInstr s.dec = some bs → decode bs = .ok (i, rest) →
    step s = exec i { s with turns := s.turns.tail }

/-- R201 to R203, R106: a well-formed instruction whose bytes stand at `DEC_RP` and end at or before `DEC_PEND` is the
one the step runs. -/
def Obligations.StepRunsInstructionAtReadPointer : Prop :=
  ∀ (s : State) (i : Instr), nextAgent s = .dec → s.dec.status = .busy → s.dec.po < s.dec.quota →
    i.WellFormed → s.dec.rp + (encode i).length ≤ s.dec.pend →
    s.dec.inMem.readBytes s.dec.rp (encode i).length = some (encode i) →
    step s = exec i { s with turns := s.turns.tail }

/-- Log 6: the word of `withFetchWord` is what the very next step runs. -/
def Obligations.FetchWordRunsNext : Prop :=
  ∀ (s : State) (nbits w : Nat) (i : Instr), decodeTableWord nbits w = some i →
    step (s.withFetchWord nbits w) = exec i { s with dec := placeInstr (tableBytes nbits w) s.dec }

/-- R203: an instruction cut off by the end of the payload is not executed, `DEC_RP <- DEC_PEND`. The spec's decision
D12 (log 12). -/
def Obligations.TruncatedInstructionIsSkipped : Prop :=
  ∀ (s : State) (b0 : Byte), nextAgent s = .dec → s.dec.status = .busy →
    s.dec.rp < s.dec.pend → s.dec.po < s.dec.quota →
    s.dec.inMem.read s.dec.rp = some b0 → s.dec.pend < s.dec.rp + (classify b0).length →
    (∀ a, s.dec.rp ≤ a → a < s.dec.pend → (s.dec.inMem.read a).isSome) →
    step s = .next { s with turns := s.turns.tail, dec := { s.dec with rp := s.dec.pend } }

/-- R211: an executed instruction of length `L` moves `DEC_RP` by `L`, and the only other change is to `DEC_PEND`,
where the instruction is not complete. -/
def Obligations.ReadPointerAdvancesByLength : Prop :=
  ∀ (s t : State), nextAgent s = .dec → s.dec.status = .busy →
    s.dec.rp < s.dec.pend → s.dec.po < s.dec.quota → step s = .next t →
    ∃ b0, s.dec.inMem.read s.dec.rp = some b0 ∧
      (s.dec.rp + (classify b0).length ≤ s.dec.pend → t.dec.rp = s.dec.rp + (classify b0).length) ∧
      (s.dec.pend < s.dec.rp + (classify b0).length → t.dec.rp = s.dec.pend) ∧ s.dec.rp < t.dec.rp

/-- R212: the final count check, when payload or quota is exhausted; bytes left over are no error (R213). That the
loop ends at the quota is the spec's decision D11 (log 12). -/
def Obligations.PassEndsByPixelCount : Prop :=
  ∀ (s : State), nextAgent s = .dec → s.dec.status = .busy →
    ¬ (s.dec.rp < s.dec.pend ∧ s.dec.po < s.dec.width.toNat * s.dec.height.toNat) →
    (s.dec.po < s.dec.width.toNat * s.dec.height.toNat →
      step s = .next { s with
        turns := s.turns.tail
        dec := { s.dec with status := .error, err := some .insufficient } }) ∧
    (s.dec.width.toNat * s.dec.height.toNat ≤ s.dec.po →
      step s = .next { s with turns := s.turns.tail, dec := { s.dec with status := .done } })

/-! ### Starting the decoder -/

/-- R134: a declared length below 22 fails, whatever bytes are there or not there; from 22 on the check passes. -/
def Obligations.ShortStreamIsRejected : Prop :=
  (∀ (s : State) (cs : List HostCmd), nextAgent s = .host → s.host = .startDec :: cs → s.dec.status ≠ .busy →
    s.dec.inLen < 22 →
    step s = .next { s with
      turns := s.turns.tail
      host := cs
      dec := { s.dec with status := .error, err := some .tooSmall } }) ∧
  (∀ d : DecState, 22 ≤ d.inLen → d.lenCheck = .next d)

/-- R133: the checks in their order; the first that fails ends the operation with its error (R134, R135, R139). -/
def Obligations.SynchroniserReportsFirstViolation : Prop :=
  ∀ (s : State) (cs : List HostCmd) (bs : List Byte),
    nextAgent s = .host → s.host = .startDec :: cs → s.dec.status ≠ .busy →
    s.dec.inMem.readBytes 0 s.dec.inLen = some bs →
    ∃ t, step s = .next t ∧ t.enc = s.enc ∧ t.host = cs ∧
      t.dec.inMem = s.dec.inMem ∧ t.dec.outMem = s.dec.outMem ∧ t.dec.inLen = s.dec.inLen ∧
      if bs.length < 22 then t.dec.status = .error ∧ t.dec.err = some .tooSmall
      else if bs.take 4 ≠ [0x71, 0x6F, 0x69, 0x66] then t.dec.status = .error ∧ t.dec.err = some .magic
      else if bs.getD 12 0 ≠ 3 ∧ bs.getD 12 0 ≠ 4 then t.dec.status = .error ∧ t.dec.err = some .channels
      else t.dec.status = .busy ∧ t.dec.err = none

/-- R136: the header fields, big-endian, and the exact product. -/
def Obligations.HeaderIsParsedBigEndian : Prop :=
  ∀ (d : DecState) (w3 w2 w1 w0 h3 h2 h1 h0 c cs : Byte),
    d.inMem.readBytes 4 10 = some [w3, w2, w1, w0, h3, h2, h1, h0, c, cs] →
    ∃ d', d.hdrParse = .next d' ∧
      d'.width.toNat = w3.toNat * 2 ^ 24 + w2.toNat * 2 ^ 16 + w1.toNat * 2 ^ 8 + w0.toNat ∧
      d'.height.toNat = h3.toNat * 2 ^ 24 + h2.toNat * 2 ^ 16 + h1.toNat * 2 ^ 8 + h0.toNat ∧
      d'.channels = c ∧ d'.colorspace = cs ∧
      d'.outLen = c.toNat * d'.width.toNat * d'.height.toNat ∧
      d' = { d with width := d'.width, height := d'.height, channels := c, colorspace := cs, outLen := d'.outLen }

/-- R137: the first window equal to the trailer, from 14 to `DEC_INLEN - 8`; nothing found leaves the whole remainder.
That the last position counts is the spec's decision D9 (log 12). -/
def Obligations.TrailerScanTakesFirstMatch : Prop :=
  ∀ (d d' : DecState), d.inMem.Placed d.inLen → 22 ≤ d.inLen → d.trlScan = .next d' →
    d' = { d with found := d'.found, pend := d'.pend } ∧
    (d'.found = true →
      14 ≤ d'.pend ∧ d'.pend + 8 ≤ d.inLen ∧ d.inMem.readBytes d'.pend 8 = some [0, 0, 0, 0, 0, 0, 0, 1] ∧
      ∀ q, 14 ≤ q → q < d'.pend → d.inMem.readBytes q 8 ≠ some [0, 0, 0, 0, 0, 0, 0, 1]) ∧
    (d'.found = false →
      d'.pend = d.inLen ∧
      ∀ q, 14 ≤ q → q + 8 ≤ d.inLen → d.inMem.readBytes q 8 ≠ some [0, 0, 0, 0, 0, 0, 0, 1])

/-- R137 on a placed input always answers. -/
def Obligations.TrailerScanCompletes : Prop :=
  ∀ (d : DecState), d.inMem.Placed d.inLen → ∃ d', d.trlScan = .next d'

/-- R140 (the spec marks it derived), R281: what an accepted `START_DEC` that passes the synchroniser leaves. -/
def Obligations.SynchroniserLeavesPassReady : Prop :=
  ∀ (s t : State) (cs : List HostCmd), nextAgent s = .host → s.host = .startDec :: cs → s.dec.status ≠ .busy →
    step s = .next t → t.dec.status = .busy →
    channelsOk t.dec.channels ∧ 14 ≤ t.dec.pend ∧ t.dec.pend ≤ t.dec.inLen ∧ t.dec.rp = 14 ∧ t.dec.po = 0 ∧
    t.dec.prev = ⟨0, 0, 0, 255⟩ ∧ (∀ i, cacheGet t.dec.cache i = ⟨0, 0, 0, 0⟩) ∧
    t.dec.outMem = s.dec.outMem ∧ t.dec.inMem = s.dec.inMem ∧ t.enc = s.enc

/-- R138, R245: no step makes `DEC_ERR_TRAILER` the reported error. The spec's decision D10 (log 12). -/
def Obligations.TrailerErrorIsNeverRaised : Prop :=
  ∀ (s t : State), s.dec.err ≠ some .trailer → step s = .next t → t.dec.err ≠ some .trailer

/-! ### The encoder's steps -/

/-- R160, R161, R130, R281: `START_ENC`. Size is checked before channels (the spec's decision D6, log 12); what passes
has its working registers at their start values, the header in `ENC_OUT`, and the parameter registers as the host left
them (R22, R46). -/
def Obligations.StartEncChecksThenWritesHeader : Prop :=
  ∀ (s : State) (cs : List HostCmd), nextAgent s = .host → s.host = .startEnc :: cs → s.enc.status ≠ .busy →
    ∃ t, step s = .next t ∧ t.dec = s.dec ∧ t.host = cs ∧ t.enc.inMem = s.enc.inMem ∧
      if s.enc.inLen < s.enc.channels.toNat * s.enc.width.toNat * s.enc.height.toNat then
        t.enc = { s.enc with status := .error, err := some .size }
      else if s.enc.channels ≠ 3 ∧ s.enc.channels ≠ 4 then
        t.enc = { s.enc with status := .error, err := some .channels }
      else
        t.enc.status = .busy ∧ t.enc.err = none ∧ t.enc.prev = ⟨0, 0, 0, 255⟩ ∧
        (∀ i, cacheGet t.enc.cache i = ⟨0, 0, 0, 0⟩) ∧ t.enc.run = 0 ∧ t.enc.pi = 0 ∧ t.enc.wp = 14 ∧
        t.enc.width = s.enc.width ∧ t.enc.height = s.enc.height ∧ t.enc.channels = s.enc.channels ∧
        t.enc.colorspace = s.enc.colorspace ∧ t.enc.inLen = s.enc.inLen ∧
        t.enc.outMem.readBytes 0 14 =
          some (Whole.header s.enc.width s.enc.height s.enc.channels s.enc.colorspace) ∧
        ∀ a, 14 ≤ a → t.enc.outMem.read a = s.enc.outMem.read a

/-- R91, R92, R130: the 14 header bytes written out. -/
def Obligations.HeaderBytesAreBigEndian : Prop :=
  ∀ (w h : Word32) (c cs : Byte), ∃ w3 w2 w1 w0 h3 h2 h1 h0 : Byte,
    headerBytes w h c cs = [0x71, 0x6F, 0x69, 0x66, w3, w2, w1, w0, h3, h2, h1, h0, c, cs] ∧
    w.toNat = w3.toNat * 2 ^ 24 + w2.toNat * 2 ^ 16 + w1.toNat * 2 ^ 8 + w0.toNat ∧
    h.toNat = h3.toNat * 2 ^ 24 + h2.toNat * 2 ^ 16 + h1.toNat * 2 ^ 8 + h0.toNat

/-- R162: the pixel fetched from the row-major buffer; alpha is 255 with three channels. -/
def Obligations.PixelFetchDefaultsAlpha : Prop :=
  ∀ (e : EncState) (r g b a : Byte),
    (e.channels = 4 → e.inMem.readBytes (e.pi * 4) 4 = some [r, g, b, a] → fetchPixel e = some ⟨r, g, b, a⟩) ∧
    (e.channels = 3 → e.inMem.readBytes (e.pi * 3) 3 = some [r, g, b] → fetchPixel e = some ⟨r, g, b, 255⟩)

/-- R165: a pixel equal to the previous one. No cache store (the spec's decision D8, log 12). -/
def Obligations.EqualPixelExtendsRun : Prop :=
  ∀ (s : State) (px : Pixel), nextAgent s = .enc → s.enc.status = .busy → s.enc.pi < s.enc.quota →
    fetchPixel s.enc = some px → px = s.enc.prev →
    (s.enc.run + 1 ≠ 62 → step s = .next { s with
      turns := s.turns.tail
      enc := { s.enc with run := s.enc.run + 1, pi := s.enc.pi + 1 } }) ∧
    (s.enc.run + 1 = 62 → ∃ t, step s = .next t ∧ Appended [0xFD] s.enc t.enc ∧
      t = { s with
        turns := s.turns.tail
        enc := { s.enc with run := 0, pi := s.enc.pi + 1, wp := s.enc.wp + 1, outMem := t.enc.outMem } })

/-- R164, R166 to R173: a pixel that differs from the previous one. The bytes are those of the whole-operation text
R177: the flushed run first, then the one instruction the decision order selects. -/
def Obligations.DifferentPixelEmitsInstruction : Prop :=
  ∀ (s : State) (px : Pixel), nextAgent s = .enc → s.enc.status = .busy → s.enc.pi < s.enc.quota →
    fetchPixel s.enc = some px → px ≠ s.enc.prev →
    ∃ t, step s = .next t ∧
      Appended (Whole.runBytes s.enc.run ++ Whole.emitBytes px s.enc.prev s.enc.cache) s.enc t.enc ∧
      cacheGet t.enc.cache (pixelHash px) = px ∧
      (∀ i, i ≠ pixelHash px → cacheGet t.enc.cache i = cacheGet s.enc.cache i) ∧
      t = { s with
        turns := s.turns.tail
        enc := { s.enc with
          prev := px, run := 0, pi := s.enc.pi + 1,
          cache := t.enc.cache, wp := t.enc.wp, outMem := t.enc.outMem } }

/-- R174, R131 (and R175, the spec's decision D2): the end of the pass. -/
def Obligations.EncoderFinishFlushesAndTerminates : Prop :=
  ∀ (s : State), nextAgent s = .enc → s.enc.status = .busy → s.enc.quota ≤ s.enc.pi →
    ∃ t, step s = .next t ∧
      Appended (Whole.runBytes s.enc.run ++ [0, 0, 0, 0, 0, 0, 0, 1]) s.enc t.enc ∧
      t = { s with
        turns := s.turns.tail
        enc := { s.enc with run := 0, wp := t.enc.wp, outMem := t.enc.outMem, outLen := t.enc.wp, status := .done } }

/-- R109, R179 (e): what the encoder emits is well formed and canonical. -/
def Obligations.EmissionIsCanonical : Prop :=
  ∀ (e : EncState) (px : Pixel), px ≠ e.prev →
    (emission e px).WellFormed ∧
    (∀ n, emission e px ≠ .run n) ∧
    (∀ i, emission e px = .index i → i = pixelHash px ∧ cacheGet e.cache i = px) ∧
    emission e px ≠ .diff 0 0 0 ∧
    (∀ dg drg dbg, emission e px = .luma dg drg dbg → ¬ diffFits (dg + drg) dg (dg + dbg)) ∧
    (∀ r g b a, emission e px = .rgba r g b a → a ≠ e.prev.a) ∧
    (∀ r g b, emission e px = .rgb r g b → px.a = e.prev.a ∧
      ¬ diffFits (delta px.r e.prev.r) (delta px.g e.prev.g) (delta px.b e.prev.b) ∧
      ¬ lumaFits (delta px.g e.prev.g) (delta px.r e.prev.r - delta px.g e.prev.g)
        (delta px.b e.prev.b - delta px.g e.prev.g)) ∧
    (cacheGet e.cache (pixelHash px) = px → emission e px = .index (pixelHash px))

/-- R179 (d): two `INDEX` for the same slot never follow one another directly. -/
def Obligations.NoIndexRepeatsItsSlot : Prop :=
  ∀ (e : EncState) (px px' : Pixel) (i : Slot), px ≠ e.prev → emission e px = .index i →
    px' ≠ (e.pixelStep px).prev → emission (e.pixelStep px) px' ≠ .index i

/-- R216 (5): executed on a decoder with the same previous pixel and the same slot, the emitted instruction gives the
pixel back. -/
def Obligations.EmissionReconstructsPixel : Prop :=
  ∀ (e : EncState) (px : Pixel) (s : State), px ≠ e.prev → s.dec.prev = e.prev →
    cacheGet s.dec.cache (pixelHash px) = cacheGet e.cache (pixelHash px) →
    ∃ t, exec (emission e px) s = .next t ∧ t.dec.prev = px ∧ t.dec.po = s.dec.po + 1 ∧
      cacheGet t.dec.cache (pixelHash px) = px

/-! ### Host, errors, isolation -/

/-- R21: a start command to a `BUSY` engine has no effect on it (decisions D2, D18). -/
def Obligations.BusyEngineIgnoresStart : Prop :=
  ∀ (s : State) (cs : List HostCmd), nextAgent s = .host →
    (s.enc.status = .busy → s.host = .startEnc :: cs →
      step s = .next { s with turns := s.turns.tail, host := cs }) ∧
    (s.dec.status = .busy → s.host = .startDec :: cs →
      step s = .next { s with turns := s.turns.tail, host := cs })

/-- R22, R31, R47, R284, U6: host writes of parameters and input reach an engine that is not `BUSY`; while it is `BUSY`
the model offers none of these moves, each refused by name (log 3). -/
def Obligations.HostWritesNeedEngineNotBusy : Prop :=
  ∀ (s : State),
    (s.enc.status ≠ .busy →
      (∀ v, hostExec (.writeEncWidth v) s = .next { s with enc := { s.enc with width := v } }) ∧
      (∀ v, hostExec (.writeEncHeight v) s = .next { s with enc := { s.enc with height := v } }) ∧
      (∀ v, hostExec (.writeEncChannels v) s = .next { s with enc := { s.enc with channels := v } }) ∧
      (∀ v, hostExec (.writeEncColorspace v) s = .next { s with enc := { s.enc with colorspace := v } }) ∧
      (∀ n, hostExec (.writeEncInLen n) s = .next { s with enc := { s.enc with inLen := n } }) ∧
      (∀ a bs, ∃ m, hostExec (.writeEncIn a bs) s = .next { s with enc := { s.enc with inMem := m } } ∧
        m.readBytes a bs.length = some bs ∧
        ∀ x, x < a ∨ a + bs.length ≤ x → m.read x = s.enc.inMem.read x)) ∧
    (s.dec.status ≠ .busy →
      (∀ n, hostExec (.writeDecInLen n) s = .next { s with dec := { s.dec with inLen := n } }) ∧
      (∀ a bs, ∃ m, hostExec (.writeDecIn a bs) s = .next { s with dec := { s.dec with inMem := m } } ∧
        m.readBytes a bs.length = some bs ∧
        ∀ x, x < a ∨ a + bs.length ≤ x → m.read x = s.dec.inMem.read x)) ∧
    (s.enc.status = .busy →
      (∀ v, hostExec (.writeEncWidth v) s = .refused .hostWriteWhileBusy) ∧
      (∀ v, hostExec (.writeEncHeight v) s = .refused .hostWriteWhileBusy) ∧
      (∀ v, hostExec (.writeEncChannels v) s = .refused .hostWriteWhileBusy) ∧
      (∀ v, hostExec (.writeEncColorspace v) s = .refused .hostWriteWhileBusy) ∧
      (∀ n, hostExec (.writeEncInLen n) s = .refused .hostWriteWhileBusy) ∧
      (∀ a bs, hostExec (.writeEncIn a bs) s = .refused .hostWriteWhileBusy)) ∧
    (s.dec.status = .busy →
      (∀ n, hostExec (.writeDecInLen n) s = .refused .hostWriteWhileBusy) ∧
      (∀ a bs, hostExec (.writeDecIn a bs) s = .refused .hostWriteWhileBusy))

/-- R30, R40, R47: results and output bytes are readable when the engine is `DONE`, status and error codes always; the
four status codes are those of R27 and R39. -/
def Obligations.HostReadsResultsWhenDone : Prop :=
  (statusCode .idle = 0 ∧ statusCode .busy = 1 ∧ statusCode .done = 2 ∧ statusCode .error = 3) ∧
  ∀ (s : State),
    hostExec (.readReg .encStatus) s = .next { s with hostData := statusCode s.enc.status } ∧
    hostExec (.readReg .decStatus) s = .next { s with hostData := statusCode s.dec.status } ∧
    hostExec (.readReg .encErr) s = .next { s with hostData := encErrCode s.enc.err } ∧
    hostExec (.readReg .decErr) s = .next { s with hostData := decErrCode s.dec.err } ∧
    (s.enc.status = .done →
      hostExec (.readReg .encOutLen) s = .next { s with hostData := s.enc.outLen } ∧
      ∀ a b, a < s.enc.outLen → s.enc.outMem.read a = some b →
        hostExec (.readMem .encOut a) s = .next { s with hostData := b.toNat }) ∧
    (s.dec.status = .done →
      hostExec (.readReg .decWidth) s = .next { s with hostData := s.dec.width.toNat } ∧
      hostExec (.readReg .decHeight) s = .next { s with hostData := s.dec.height.toNat } ∧
      hostExec (.readReg .decChannels) s = .next { s with hostData := s.dec.channels.toNat } ∧
      hostExec (.readReg .decColorspace) s = .next { s with hostData := s.dec.colorspace.toNat } ∧
      hostExec (.readReg .decOutLen) s = .next { s with hostData := s.dec.outLen } ∧
      ∀ a b, a < s.dec.outLen → s.dec.outMem.read a = some b →
        hostExec (.readMem .decOut a) s = .next { s with hostData := b.toNat })

/-- R47: parameter registers and input bytes are readable always, whatever the engines' statuses. -/
def Obligations.HostReadsParametersAlways : Prop :=
  ∀ (s : State),
    hostExec (.readReg .encWidth) s = .next { s with hostData := s.enc.width.toNat } ∧
    hostExec (.readReg .encHeight) s = .next { s with hostData := s.enc.height.toNat } ∧
    hostExec (.readReg .encChannels) s = .next { s with hostData := s.enc.channels.toNat } ∧
    hostExec (.readReg .encColorspace) s = .next { s with hostData := s.enc.colorspace.toNat } ∧
    hostExec (.readReg .encInLen) s = .next { s with hostData := s.enc.inLen } ∧
    hostExec (.readReg .decInLen) s = .next { s with hostData := s.dec.inLen } ∧
    (∀ a b, s.enc.inMem.read a = some b →
      hostExec (.readMem .encIn a) s = .next { s with hostData := b.toNat }) ∧
    (∀ a b, s.dec.inMem.read a = some b →
      hostExec (.readMem .decIn a) s = .next { s with hostData := b.toNat })

/-- R284, R47, U6: the host must not read results or output of a `BUSY` engine; the model offers none of these moves,
each refused by name (log 3). -/
def Obligations.BusyEngineRefusesResultReads : Prop :=
  ∀ (s : State),
    (s.enc.status = .busy →
      hostExec (.readReg .encOutLen) s = .refused .hostReadWhileBusy ∧
      ∀ a, hostExec (.readMem .encOut a) s = .refused .hostReadWhileBusy) ∧
    (s.dec.status = .busy →
      hostExec (.readReg .decWidth) s = .refused .hostReadWhileBusy ∧
      hostExec (.readReg .decHeight) s = .refused .hostReadWhileBusy ∧
      hostExec (.readReg .decChannels) s = .refused .hostReadWhileBusy ∧
      hostExec (.readReg .decColorspace) s = .refused .hostReadWhileBusy ∧
      hostExec (.readReg .decOutLen) s = .refused .hostReadWhileBusy ∧
      ∀ a, hostExec (.readMem .decOut a) s = .refused .hostReadWhileBusy)

/-- R22, R27, R32, R39: whatever a host read returns fits the register, the free values among them (log 7). -/
def Obligations.HostReadFitsRegisterWidth : Prop :=
  ∀ (s t : State) (r : HostReg) (w : Nat), regWidth r = some w → hostExec (.readReg r) s = .next t →
    t.hostData < 2 ^ w ∧ t.enc = s.enc ∧ t.dec = s.dec

/-- R251, R248: `raise` writes the code and the status and nothing else. The codes are the spec's decision D13. -/
def Obligations.RaiseSetsCodeAndStatusOnly : Prop :=
  (∀ c e, EncState.raise c e = { e with err := some c, status := .error }) ∧
  (∀ c d, DecState.raise c d = { d with err := some c, status := .error }) ∧
  encErrCode none = 0 ∧ encErrCode (some .size) = 1 ∧ encErrCode (some .channels) = 2 ∧
  decErrCode none = 0 ∧ decErrCode (some .tooSmall) = 1 ∧ decErrCode (some .magic) = 2 ∧
  decErrCode (some .trailer) = 3 ∧ decErrCode (some .channels) = 4 ∧ decErrCode (some .insufficient) = 5

/-- R253, R45: an engine in `ERROR`, or with any history in its working and result registers, starts a new operation as
a fresh one does: same status and error, and where the pass begins, the same registers and the same output bytes. -/
def Obligations.StartForgetsEarlierOperations : Prop :=
  (∀ e e' : EncState, e.width = e'.width → e.height = e'.height → e.channels = e'.channels →
    e.colorspace = e'.colorspace → e.inLen = e'.inLen → e.inMem = e'.inMem →
    e.start.status = e'.start.status ∧ e.start.err = e'.start.err ∧
    (e.start.status = .busy →
      e.start = { e'.start with outLen := e.outLen, outMem := e.start.outMem } ∧
      ∀ a, a < e.start.wp → e.start.outMem.read a = e'.start.outMem.read a)) ∧
  (∀ d d' : DecState, d.inLen = d'.inLen → d.inMem = d'.inMem →
    (d.start = .fault .inputNotPlaced ∧ d'.start = .fault .inputNotPlaced) ∨
    ∃ t t', d.start = .next t ∧ d'.start = .next t' ∧ t.status = t'.status ∧ t.err = t'.err ∧
      (t.status = .busy → t = { t' with outMem := t.outMem }))

/-- R20, R71 (the spec's decision D1): moves of ENC and DEC commute. -/
def Obligations.EngineMovesCommute : Prop :=
  ∀ (s t u : State), agentMove .enc s = .next t → agentMove .dec t = .next u →
    ∃ t', agentMove .dec s = .next t' ∧ agentMove .enc t' = .next u

/-- R43, R47, R20: an engine never writes a parameter register, its input space or anything of the other engine or of
the host. -/
def Obligations.EnginesWriteOnlyTheirOwn : Prop :=
  ∀ (s t : State), step s = .next t →
    (nextAgent s = .enc →
      t.enc.width = s.enc.width ∧ t.enc.height = s.enc.height ∧ t.enc.channels = s.enc.channels ∧
      t.enc.colorspace = s.enc.colorspace ∧ t.enc.inLen = s.enc.inLen ∧ t.enc.inMem = s.enc.inMem ∧
      t = { s with turns := s.turns.tail, enc := t.enc }) ∧
    (nextAgent s = .dec →
      t.dec.inLen = s.dec.inLen ∧ t.dec.inMem = s.dec.inMem ∧
      t = { s with turns := s.turns.tail, dec := t.dec })

/-- R291, U6: an engine stops on nothing but a byte of its input that nobody placed. -/
def Obligations.EnginesStopOnlyOnUnplacedInput : Prop :=
  ∀ (s : State),
    (nextAgent s = .enc → channelsOk s.enc.channels →
      (∃ t, step s = .next t) ∨
      (step s = .fault .inputNotPlaced ∧
        ∃ a, a < s.enc.quota * s.enc.channels.toNat ∧ s.enc.inMem.read a = none)) ∧
    (nextAgent s = .dec →
      (∃ t, step s = .next t) ∨
      (step s = .fault .inputNotPlaced ∧
        ∃ a, s.dec.rp ≤ a ∧ a < s.dec.pend ∧ s.dec.inMem.read a = none))

/-! ### Invariants that every step keeps -/

/-- The canonical form of the four memories. -/
def Obligations.StepKeepsMemoryCanonical : Prop :=
  ∀ (s t : State), s.MemOk → step s = .next t → t.MemOk

/-- R179 (a), (c), (f), R24, R25, R27, R29, R176, R180: the encoder's invariant. -/
def Obligations.StepKeepsEncoderInvariant : Prop :=
  ∀ (s t : State), s.enc.Inv → step s = .next t → t.enc.Inv

/-- R32, R35 to R37, R39, R140, R210, R212: the decoder's invariant. Its clause that `DEC_ERR` is never the trailer's
cause is R138 and R245, the spec's decision D10 (log 12). -/
def Obligations.StepKeepsDecoderInvariant : Prop :=
  ∀ (s t : State), s.dec.Inv → step s = .next t → t.dec.Inv

/-! ### The whole operations -/

/-- R160 to R177: stepping the encoder from `START_ENC` gives what the one-function form R177 gives, in exactly one
step for the start, one per pixel and one for the end. The order of the two errors is decision D6 (log 12). -/
def Obligations.EncoderRunMatchesEncodeFunction : Prop :=
  ∀ (s : State) (pix : List Byte), s.host = [.startEnc] → s.turns = [] →
    s.enc.status ≠ .busy → s.dec.status ≠ .busy → s.enc.inMem.readBytes 0 s.enc.inLen = some pix →
    match Whole.encode pix s.enc.width s.enc.height s.enc.channels s.enc.colorspace with
    | .error c => ∃ t, step s = .next t ∧ t.enc.status = .error ∧ t.enc.err = some c ∧ t.dec = s.dec
    | .ok out =>
      ∃ t, Host.Core.run Sys2Proof.core (s.enc.width.toNat * s.enc.height.toNat + 2) s = .next t ∧
        t.enc.status = .done ∧ t.enc.err = none ∧ t.enc.outLen = out.length ∧
        t.enc.outMem.readBytes 0 out.length = some out ∧ t.dec = s.dec

/-- R200 to R215: stepping the decoder from `START_DEC` gives what the one-function form R215 gives, within
`DEC_INLEN + 2` steps (R291). Early stop, truncation and missing trailer are decisions D10 to D12 (log 12). -/
def Obligations.DecoderRunMatchesDecodeFunction : Prop :=
  ∀ (s : State) (bs : List Byte), s.host = [.startDec] → s.turns = [] →
    s.enc.status ≠ .busy → s.dec.status ≠ .busy → s.dec.inMem.readBytes 0 s.dec.inLen = some bs →
    ∃ t k, k ≤ s.dec.inLen + 2 ∧ Host.Core.run Sys2Proof.core k s = .next t ∧ t.enc = s.enc ∧
      match Whole.decode bs with
      | .error c => t.dec.status = .error ∧ t.dec.err = some c
      | .ok img =>
        t.dec.status = .done ∧ t.dec.err = none ∧ t.dec.width = img.width ∧ t.dec.height = img.height ∧
        t.dec.channels = img.channels ∧ t.dec.colorspace = img.colorspace ∧
        t.dec.outLen = img.data.length ∧ t.dec.outMem.readBytes 0 t.dec.outLen = some img.data

/-- R180 (the spec marks it derived): the size of a stream. -/
def Obligations.EncodedSizeIsBounded : Prop :=
  ∀ (pix : List Byte) (w h : Word32) (c cs : Byte) (out : List Byte),
    Whole.encode pix w h c cs = .ok out →
    22 ≤ out.length ∧ out.length ≤ 22 + w.toNat * h.toNat * (c.toNat + 1)

/-- R181 (the spec marks it derived), R288: in a stream the encoder wrote, the first window equal to the trailer is the
trailer. -/
def Obligations.EncodedPayloadHoldsNoTrailer : Prop :=
  ∀ (pix : List Byte) (w h : Word32) (c cs : Byte) (out : List Byte),
    Whole.encode pix w h c cs = .ok out → Whole.payloadEnd out = out.length - 8

/-- R216 (the document's testable property, derived in the spec): decoding what was encoded gives the pixels and the
parameters back. -/
def Obligations.DecodeOfEncodeIsIdentity : Prop :=
  ∀ (pix : List Byte) (w h : Word32) (c cs : Byte) (out : List Byte),
    Whole.encode pix w h c cs = .ok out →
    Whole.decode out = .ok ⟨pix.take (c.toNat * w.toNat * h.toNat), w, h, c, cs⟩
end

