-- ==== Sys2Proof/Laws/Decode.lean ====
section
/-! SUPPORT. Small facts about the opcode parser and the two directions of the formats. -/

namespace Sys2Proof

/-- The length of an instruction's bytes (R97). -/
@[simp] theorem encode_length (i : Instr) : (encode i).length = i.length := by cases i <;> rfl

/-- An instruction has at least one byte and at most five. -/
theorem Instr.length_range (i : Instr) : 1 ≤ i.length ∧ i.length ≤ 5 := by cases i <;> simp [Instr.length]

theorem OpClass.length_range (c : OpClass) : 1 ≤ c.length ∧ c.length ≤ 5 := by cases c <;> simp [OpClass.length]

/-- A part of a byte is below its size (R8). -/
theorem field_lt (v : Byte) (lo w : Nat) : field v lo w < 2 ^ w := by
  unfold field; exact (v.extractLsb' lo w).isLt

/-- A byte's part is the number `v / 2^lo mod 2^w` (R8). -/
theorem field_eq (v : Byte) (lo w : Nat) : field v lo w = v.toNat / 2 ^ lo % 2 ^ w := by
  simp [field, BitVec.extractLsb'_toNat, Nat.shiftRight_eq_div_pow]

/-- What decoding can answer on a first byte: the class's instruction and the bytes after it, or that bytes are
missing. -/
theorem decode_cons_ok {b0 : Byte} {tl rest : List Byte} {i : Instr} (h : decode (b0 :: tl) = .ok (i, rest)) :
    i.length = (classify b0).length ∧ (classify b0).length ≤ tl.length + 1 ∧
      rest = tl.drop ((classify b0).length - 1) := by
  simp only [decode] at h
  cases hc : classify b0 <;> simp only [hc] at h
  · split at h
    · simp only [Except.ok.injEq, Prod.mk.injEq] at h
      obtain ⟨rfl, rfl⟩ := h
      simp [OpClass.length, Instr.length]
    · cases h
  · split at h
    · simp only [Except.ok.injEq, Prod.mk.injEq] at h
      obtain ⟨rfl, rfl⟩ := h
      simp [OpClass.length, Instr.length]
    · cases h
  · simp only [Except.ok.injEq, Prod.mk.injEq] at h
    obtain ⟨rfl, rfl⟩ := h
    simp [OpClass.length, Instr.length]
  · simp only [Except.ok.injEq, Prod.mk.injEq] at h
    obtain ⟨rfl, rfl⟩ := h
    simp [OpClass.length, Instr.length]
  · split at h
    · simp only [Except.ok.injEq, Prod.mk.injEq] at h
      obtain ⟨rfl, rfl⟩ := h
      simp [OpClass.length, Instr.length]
    · cases h
  · simp only [Except.ok.injEq, Prod.mk.injEq] at h
    obtain ⟨rfl, rfl⟩ := h
    simp [OpClass.length, Instr.length]

/-- Decoding fails on a first byte exactly by operand bytes that are missing. -/
theorem decode_cons_error {b0 : Byte} {tl : List Byte} {e : DecodeError} (h : decode (b0 :: tl) = .error e) :
    e = .truncated (classify b0) ∧ tl.length + 1 < (classify b0).length := by
  simp only [decode] at h
  cases hc : classify b0 <;> simp only [hc] at h
  · split at h
    · cases h
    · next hn =>
      simp only [Except.error.injEq] at h
      refine ⟨h.symm, ?_⟩
      rcases tl with _ | ⟨a, _ | ⟨b, _ | ⟨c, t⟩⟩⟩
      · simp [OpClass.length]
      · simp [OpClass.length]
      · simp [OpClass.length]
      · exact absurd rfl (hn a b c t)
  · split at h
    · cases h
    · next hn =>
      simp only [Except.error.injEq] at h
      refine ⟨h.symm, ?_⟩
      rcases tl with _ | ⟨a, _ | ⟨b, _ | ⟨c, _ | ⟨d, t⟩⟩⟩⟩
      · simp [OpClass.length]
      · simp [OpClass.length]
      · simp [OpClass.length]
      · simp [OpClass.length]
      · exact absurd rfl (hn a b c d t)
  · cases h
  · cases h
  · split at h
    · cases h
    · simp only [Except.error.injEq] at h
      simp [← h, OpClass.length]
  · cases h

/-- The bytes after an instruction do not change how it decodes. -/
theorem decode_append {bs rest : List Byte} {i : Instr} (h : decode bs = .ok (i, rest)) (ext : List Byte) :
    decode (bs ++ ext) = .ok (i, rest ++ ext) := by
  cases bs with
  | nil => simp [decode] at h
  | cons b0 tl =>
    simp only [decode, List.cons_append] at h ⊢
    cases hc : classify b0 <;> simp only [hc] at h ⊢
    · split at h
      · simp only [Except.ok.injEq, Prod.mk.injEq] at h
        obtain ⟨rfl, rfl⟩ := h
        rfl
      · cases h
    · split at h
      · simp only [Except.ok.injEq, Prod.mk.injEq] at h
        obtain ⟨rfl, rfl⟩ := h
        rfl
      · cases h
    · simp only [Except.ok.injEq, Prod.mk.injEq] at h
      obtain ⟨rfl, rfl⟩ := h
      rfl
    · simp only [Except.ok.injEq, Prod.mk.injEq] at h
      obtain ⟨rfl, rfl⟩ := h
      rfl
    · split at h
      · simp only [Except.ok.injEq, Prod.mk.injEq] at h
        obtain ⟨rfl, rfl⟩ := h
        rfl
      · cases h
    · simp only [Except.ok.injEq, Prod.mk.injEq] at h
      obtain ⟨rfl, rfl⟩ := h
      rfl

end Sys2Proof
end

