-- ==== Sys2Proof/Laws/Memory.lean ====
section
/-! SUPPORT. The laws of the memory spaces: read after write, frame, the canonical form, byte sequences. -/

namespace Sys2Proof.Machine.Memory

variable {m : Memory} {a x n : Nat} {b : Byte} {bs : List Byte}

theorem wf_nil : wf [] := by simp [wf]

theorem wf_cons {c : Byte} : wf ((x, c) :: m) ↔ (∀ p ∈ m, x < p.1) ∧ wf m := by
  simp [wf, List.pairwise_cons]

/-- Nothing below the first address of a canonical memory has a value. -/
theorem read_eq_none_of_lt (h : ∀ p ∈ m, a < p.1) : read m a = none := by
  induction m with
  | nil => rfl
  | cons p m ih =>
    obtain ⟨x, c⟩ := p
    have hx : a < x := h (x, c) (by simp)
    simp only [read, if_neg (Nat.ne_of_gt hx)]
    exact ih fun q hq => h q (by simp [hq])

/-- Read after write to the same address. -/
@[simp] theorem read_write_same : (write m a b).read a = some b := by
  induction m with
  | nil => simp [write, read]
  | cons p m ih =>
    obtain ⟨x, c⟩ := p
    by_cases h1 : a < x
    · simp [write, h1, read]
    · by_cases h2 : a = x
      · simp [write, h2, read]
      · simp [write, h1, h2, read, Ne.symm h2, ih]

/-- A write leaves every other address alone. -/
theorem read_write_other (h : x ≠ a) : (write m a b).read x = m.read x := by
  induction m with
  | nil => simp [write, read, h.symm]
  | cons p m ih =>
    obtain ⟨y, c⟩ := p
    by_cases h1 : a < y
    · simp [write, h1, read, h.symm]
    · by_cases h2 : a = y
      · subst h2; simp [write, read, h.symm]
      · simp [write, h1, h2, read, ih]

/-- One read after one write. -/
theorem read_write : (write m a b).read x = if x = a then some b else m.read x := by
  split
  · next h => rw [h, read_write_same]
  · next h => exact read_write_other h

theorem mem_write {p : Host.Cell} (h : p ∈ write m a b) : p = (a, b) ∨ p ∈ m := by
  induction m with
  | nil => simpa [write] using h
  | cons q m ih =>
    obtain ⟨y, c⟩ := q
    simp only [write] at h
    split at h
    · simpa using h
    · split at h
      · rcases List.mem_cons.1 h with h | h
        · exact .inl h
        · exact .inr (by simp [h])
      · rcases List.mem_cons.1 h with h | h
        · exact .inr (by simp [h])
        · exact (ih h).imp id fun h => by simp [h]

/-- A write keeps the canonical form. -/
theorem wf_write (h : wf m) : wf (write m a b) := by
  induction m with
  | nil => simp [write, wf]
  | cons p m ih =>
    obtain ⟨y, c⟩ := p
    obtain ⟨hy, hm⟩ := wf_cons.1 h
    simp only [write]
    split
    · next h1 =>
      refine wf_cons.2 ⟨fun p hp => ?_, h⟩
      rcases List.mem_cons.1 hp with rfl | hp
      · exact h1
      · exact h1.trans (hy p hp)
    · split
      · next h2 => subst h2; exact wf_cons.2 ⟨hy, hm⟩
      · next h1 h2 =>
        refine wf_cons.2 ⟨fun p hp => ?_, ih hm⟩
        rcases mem_write hp with rfl | hp
        · show y < a; omega
        · exact hy p hp

/-- Every sequence of writes keeps the canonical form. -/
theorem wf_writeBytes (h : wf m) : wf (writeBytes m a bs) := by
  induction bs generalizing m a with
  | nil => exact h
  | cons b bs ih => exact ih (wf_write h)

/-- A canonical memory is determined by what its addresses read as. -/
theorem eq_of_read_eq {m' : Memory} (h : wf m) (h' : wf m') (hr : ∀ a, m.read a = m'.read a) : m = m' := by
  induction m generalizing m' with
  | nil =>
    cases m' with
    | nil => rfl
    | cons p m' => have := hr p.1; simp [read] at this
  | cons p m ih =>
    obtain ⟨x, c⟩ := p
    obtain ⟨hx, hm⟩ := wf_cons.1 h
    cases m' with
    | nil => have := hr x; simp [read] at this
    | cons q m' =>
      obtain ⟨y, e⟩ := q
      obtain ⟨hy, hm'⟩ := wf_cons.1 h'
      have hxy : x = y := by
        rcases Nat.lt_trichotomy x y with hlt | heq | hlt
        · have := hr x
          rw [read_eq_none_of_lt (m := (y, e) :: m')] at this
          · simp [read] at this
          · intro p hp
            rcases List.mem_cons.1 hp with rfl | hp
            · exact hlt
            · exact hlt.trans (hy p hp)
        · exact heq
        · have := hr y
          rw [read_eq_none_of_lt (m := (x, c) :: m)] at this
          · simp [read] at this
          · intro p hp
            rcases List.mem_cons.1 hp with rfl | hp
            · exact hlt
            · exact hlt.trans (hx p hp)
      subst hxy
      have hc : c = e := by simpa [read] using hr x
      subst hc
      rw [ih hm hm' fun a => ?_]
      by_cases hax : x = a
      · subst hax
        rw [read_eq_none_of_lt hx, read_eq_none_of_lt hy]
      · simpa [read, hax] using hr a

/-- What an address reads as after a sequence of writes. -/
theorem read_writeBytes :
    (writeBytes m a bs).read x = if a ≤ x ∧ x < a + bs.length then bs[x - a]? else m.read x := by
  induction bs generalizing m a with
  | nil => simp [writeBytes]
  | cons b bs ih =>
    rw [writeBytes, ih, List.length_cons]
    by_cases h1 : x = a
    · subst h1; simp
    · by_cases h2 : a + 1 ≤ x ∧ x < a + 1 + bs.length
      · have h3 : a ≤ x ∧ x < a + (bs.length + 1) := by omega
        have h4 : x - a = (x - (a + 1)) + 1 := by omega
        rw [if_pos h2, if_pos h3, h4, List.getElem?_cons_succ]
      · have h3 : ¬ (a ≤ x ∧ x < a + (bs.length + 1)) := by omega
        rw [if_neg h2, if_neg h3, read_write_other h1]

/-- Outside the bytes written, every address reads as before. -/
theorem read_writeBytes_outside (h : x < a ∨ a + bs.length ≤ x) :
    (writeBytes m a bs).read x = m.read x := by
  rw [read_writeBytes, if_neg (by omega)]

/-- `readBytes` answers `bs` exactly where each of its addresses reads as the byte of `bs`. -/
theorem readBytes_eq_some :
    m.readBytes a n = some bs ↔ bs.length = n ∧ ∀ i, i < n → m.read (a + i) = bs[i]? := by
  induction n generalizing a bs with
  | zero =>
    constructor
    · intro h; simp [readBytes] at h; subst h; simp
    · rintro ⟨h, -⟩; rw [List.length_eq_zero_iff.1 h]; rfl
  | succ n ih =>
    constructor
    · intro h
      simp only [readBytes] at h
      split at h
      · next b bs' hb hbs =>
        obtain rfl : b :: bs' = bs := by simpa using h
        obtain ⟨hl, hr⟩ := ih.1 hbs
        refine ⟨by simp [hl], fun i hi => ?_⟩
        cases i with
        | zero => simpa using hb
        | succ i =>
          have := hr i (by omega)
          rw [show a + 1 + i = a + (i + 1) by omega] at this
          simpa using this
      · cases h
    · rintro ⟨hl, hr⟩
      cases bs with
      | nil => simp at hl
      | cons b bs =>
        have hb : m.read a = some b := by simpa using hr 0 (by omega)
        have hbs : m.readBytes (a + 1) n = some bs := by
          refine ih.2 ⟨by simpa using hl, fun i hi => ?_⟩
          have := hr (i + 1) (by omega)
          rw [show a + 1 + i = a + (i + 1) by omega]
          simpa using this
        simp [readBytes, hb, hbs]

theorem length_of_readBytes (h : m.readBytes a n = some bs) : bs.length = n := (readBytes_eq_some.1 h).1

/-- The bytes written are read back. -/
theorem readBytes_writeBytes : (writeBytes m a bs).readBytes a bs.length = some bs := by
  refine readBytes_eq_some.2 ⟨rfl, fun i hi => ?_⟩
  rw [read_writeBytes, if_pos (by omega)]
  congr 1; omega

/-- `readBytes` depends on nothing but the bytes it reads. -/
theorem readBytes_congr {m' : Memory} (h : ∀ i, i < n → m.read (a + i) = m'.read (a + i)) :
    m.readBytes a n = m'.readBytes a n := by
  induction n generalizing a with
  | zero => rfl
  | succ n ih =>
    have h0 : m.read a = m'.read a := by simpa using h 0 (by omega)
    have h1 := ih (a := a + 1) fun i hi => by
      rw [show a + 1 + i = a + (i + 1) by omega]; exact h (i + 1) (by omega)
    simp only [readBytes, h0, h1]

/-- Outside the bytes written, sequences read as before. -/
theorem readBytes_writeBytes_outside {c : Nat} (h : c + n ≤ a ∨ a + bs.length ≤ c) :
    (writeBytes m a bs).readBytes c n = m.readBytes c n :=
  readBytes_congr fun i hi => read_writeBytes_outside (by omega)

/-- `readBytes` answers where every byte has a value. -/
theorem readBytes_isSome (h : ∀ x, a ≤ x → x < a + n → (m.read x).isSome) : ∃ bs, m.readBytes a n = some bs := by
  induction n generalizing a with
  | zero => exact ⟨[], rfl⟩
  | succ n ih =>
    obtain ⟨b, hb⟩ := Option.isSome_iff_exists.1 (h a (by omega) (by omega))
    obtain ⟨bs, hbs⟩ := ih (a := a + 1) fun x h1 h2 => h x (by omega) (by omega)
    exact ⟨b :: bs, by simp [readBytes, hb, hbs]⟩

/-- Where `readBytes` does not answer, one of its bytes has no value. -/
theorem exists_read_none (h : m.readBytes a n = none) : ∃ x, a ≤ x ∧ x < a + n ∧ m.read x = none := by
  by_contra hc
  obtain ⟨bs, hbs⟩ := readBytes_isSome (m := m) (a := a) (n := n) fun x h1 h2 => by
    cases hx : m.read x with
    | none => exact absurd ⟨x, h1, h2, hx⟩ hc
    | some b => rfl
  rw [hbs] at h; cases h

/-- A part of a sequence that was read. -/
theorem readBytes_part (h : m.readBytes a n = some bs) {k l : Nat} (hk : k + l ≤ n) :
    m.readBytes (a + k) l = some ((bs.drop k).take l) := by
  obtain ⟨hl, hr⟩ := readBytes_eq_some.1 h
  refine readBytes_eq_some.2 ⟨by simp; omega, fun i hi => ?_⟩
  rw [Nat.add_assoc, hr (k + i) (by omega), List.getElem?_take_of_lt hi, List.getElem?_drop]

/-- One byte of a sequence that was read. -/
theorem read_of_readBytes (h : m.readBytes a n = some bs) {i : Nat} (hi : i < n) :
    m.read (a + i) = some (bs.getD i 0) := by
  obtain ⟨hl, hr⟩ := readBytes_eq_some.1 h
  rw [hr i hi, List.getElem?_eq_getElem (by omega)]
  simp [List.getD_eq_getElem?_getD, List.getElem?_eq_getElem (show i < bs.length by omega)]

/-- Sequences read one after the other. -/
theorem readBytes_append {k : Nat} {cs : List Byte} (h : m.readBytes a n = some bs)
    (h' : m.readBytes (a + n) k = some cs) : m.readBytes a (n + k) = some (bs ++ cs) := by
  obtain ⟨hl, hr⟩ := readBytes_eq_some.1 h
  obtain ⟨hl', hr'⟩ := readBytes_eq_some.1 h'
  refine readBytes_eq_some.2 ⟨by simp [hl, hl'], fun i hi => ?_⟩
  by_cases hin : i < n
  · rw [hr i hin, List.getElem?_append_left (by omega)]
  · rw [List.getElem?_append_right (by omega), show a + i = a + n + (i - n) by omega, hr' (i - n) (by omega), hl]

/-- What was placed stays placed, and what is written is placed. -/
theorem placed_writeBytes (h : m.Placed a) : (writeBytes m a bs).Placed (a + bs.length) := by
  intro x hx
  rw [read_writeBytes]
  split
  · next hc => rw [List.getElem?_eq_getElem (by omega)]; rfl
  · exact h x (by omega)

/-- The memories of the reset state are in canonical form. -/
theorem memOk_reset : State.reset.MemOk := ⟨wf_nil, wf_nil, wf_nil, wf_nil⟩

end Sys2Proof.Machine.Memory
end

