-- ==== Sys2Proof/Laws/State.lean ====
section
/-! SUPPORT. One lemma per field per update: what each named operation leaves in each register. All hold by rfl. -/

namespace Sys2Proof.Machine

/-! ### `append` (R176) -/

@[simp] theorem EncState.append_width (bs : List Byte) (e : EncState) : (e.append bs).width = e.width := rfl
@[simp] theorem EncState.append_height (bs : List Byte) (e : EncState) : (e.append bs).height = e.height := rfl
@[simp] theorem EncState.append_channels (bs : List Byte) (e : EncState) : (e.append bs).channels = e.channels := rfl
@[simp] theorem EncState.append_colorspace (bs : List Byte) (e : EncState) : (e.append bs).colorspace = e.colorspace := rfl
@[simp] theorem EncState.append_inLen (bs : List Byte) (e : EncState) : (e.append bs).inLen = e.inLen := rfl
@[simp] theorem EncState.append_prev (bs : List Byte) (e : EncState) : (e.append bs).prev = e.prev := rfl
@[simp] theorem EncState.append_run (bs : List Byte) (e : EncState) : (e.append bs).run = e.run := rfl
@[simp] theorem EncState.append_pi (bs : List Byte) (e : EncState) : (e.append bs).pi = e.pi := rfl
@[simp] theorem EncState.append_wp (bs : List Byte) (e : EncState) : (e.append bs).wp = e.wp + bs.length := rfl
@[simp] theorem EncState.append_cache (bs : List Byte) (e : EncState) : (e.append bs).cache = e.cache := rfl
@[simp] theorem EncState.append_status (bs : List Byte) (e : EncState) : (e.append bs).status = e.status := rfl
@[simp] theorem EncState.append_err (bs : List Byte) (e : EncState) : (e.append bs).err = e.err := rfl
@[simp] theorem EncState.append_outLen (bs : List Byte) (e : EncState) : (e.append bs).outLen = e.outLen := rfl
@[simp] theorem EncState.append_inMem (bs : List Byte) (e : EncState) : (e.append bs).inMem = e.inMem := rfl
@[simp] theorem EncState.append_outMem (bs : List Byte) (e : EncState) : (e.append bs).outMem = e.outMem.writeBytes e.wp bs := rfl

/-! ### `raise` in ENC (R251) -/

@[simp] theorem EncState.raise_width (c : EncCause) (e : EncState) : (e.raise c).width = e.width := rfl
@[simp] theorem EncState.raise_height (c : EncCause) (e : EncState) : (e.raise c).height = e.height := rfl
@[simp] theorem EncState.raise_channels (c : EncCause) (e : EncState) : (e.raise c).channels = e.channels := rfl
@[simp] theorem EncState.raise_colorspace (c : EncCause) (e : EncState) : (e.raise c).colorspace = e.colorspace := rfl
@[simp] theorem EncState.raise_inLen (c : EncCause) (e : EncState) : (e.raise c).inLen = e.inLen := rfl
@[simp] theorem EncState.raise_prev (c : EncCause) (e : EncState) : (e.raise c).prev = e.prev := rfl
@[simp] theorem EncState.raise_run (c : EncCause) (e : EncState) : (e.raise c).run = e.run := rfl
@[simp] theorem EncState.raise_pi (c : EncCause) (e : EncState) : (e.raise c).pi = e.pi := rfl
@[simp] theorem EncState.raise_wp (c : EncCause) (e : EncState) : (e.raise c).wp = e.wp := rfl
@[simp] theorem EncState.raise_cache (c : EncCause) (e : EncState) : (e.raise c).cache = e.cache := rfl
@[simp] theorem EncState.raise_status (c : EncCause) (e : EncState) : (e.raise c).status = .error := rfl
@[simp] theorem EncState.raise_err (c : EncCause) (e : EncState) : (e.raise c).err = some c := rfl
@[simp] theorem EncState.raise_outLen (c : EncCause) (e : EncState) : (e.raise c).outLen = e.outLen := rfl
@[simp] theorem EncState.raise_inMem (c : EncCause) (e : EncState) : (e.raise c).inMem = e.inMem := rfl
@[simp] theorem EncState.raise_outMem (c : EncCause) (e : EncState) : (e.raise c).outMem = e.outMem := rfl

/-! ### Operation start in ENC (R281) -/

@[simp] theorem EncState.init_width (e : EncState) : (e.init).width = e.width := rfl
@[simp] theorem EncState.init_height (e : EncState) : (e.init).height = e.height := rfl
@[simp] theorem EncState.init_channels (e : EncState) : (e.init).channels = e.channels := rfl
@[simp] theorem EncState.init_colorspace (e : EncState) : (e.init).colorspace = e.colorspace := rfl
@[simp] theorem EncState.init_inLen (e : EncState) : (e.init).inLen = e.inLen := rfl
@[simp] theorem EncState.init_prev (e : EncState) : (e.init).prev = Config.prevInit := rfl
@[simp] theorem EncState.init_run (e : EncState) : (e.init).run = 0 := rfl
@[simp] theorem EncState.init_pi (e : EncState) : (e.init).pi = 0 := rfl
@[simp] theorem EncState.init_wp (e : EncState) : (e.init).wp = 0 := rfl
@[simp] theorem EncState.init_cache (e : EncState) : (e.init).cache = emptyCache := rfl
@[simp] theorem EncState.init_status (e : EncState) : (e.init).status = e.status := rfl
@[simp] theorem EncState.init_err (e : EncState) : (e.init).err = e.err := rfl
@[simp] theorem EncState.init_outLen (e : EncState) : (e.init).outLen = e.outLen := rfl
@[simp] theorem EncState.init_inMem (e : EncState) : (e.init).inMem = e.inMem := rfl
@[simp] theorem EncState.init_outMem (e : EncState) : (e.init).outMem = e.outMem := rfl

/-! ### `UPDATE` (R173) -/

@[simp] theorem EncState.update_width (px : Pixel) (e : EncState) : (e.update px).width = e.width := rfl
@[simp] theorem EncState.update_height (px : Pixel) (e : EncState) : (e.update px).height = e.height := rfl
@[simp] theorem EncState.update_channels (px : Pixel) (e : EncState) : (e.update px).channels = e.channels := rfl
@[simp] theorem EncState.update_colorspace (px : Pixel) (e : EncState) : (e.update px).colorspace = e.colorspace := rfl
@[simp] theorem EncState.update_inLen (px : Pixel) (e : EncState) : (e.update px).inLen = e.inLen := rfl
@[simp] theorem EncState.update_prev (px : Pixel) (e : EncState) : (e.update px).prev = px := rfl
@[simp] theorem EncState.update_run (px : Pixel) (e : EncState) : (e.update px).run = e.run := rfl
@[simp] theorem EncState.update_pi (px : Pixel) (e : EncState) : (e.update px).pi = e.pi := rfl
@[simp] theorem EncState.update_wp (px : Pixel) (e : EncState) : (e.update px).wp = e.wp := rfl
@[simp] theorem EncState.update_cache (px : Pixel) (e : EncState) : (e.update px).cache = cacheStore e.cache px := rfl
@[simp] theorem EncState.update_status (px : Pixel) (e : EncState) : (e.update px).status = e.status := rfl
@[simp] theorem EncState.update_err (px : Pixel) (e : EncState) : (e.update px).err = e.err := rfl
@[simp] theorem EncState.update_outLen (px : Pixel) (e : EncState) : (e.update px).outLen = e.outLen := rfl
@[simp] theorem EncState.update_inMem (px : Pixel) (e : EncState) : (e.update px).inMem = e.inMem := rfl
@[simp] theorem EncState.update_outMem (px : Pixel) (e : EncState) : (e.update px).outMem = e.outMem := rfl

/-! ### `EMIT` (R210) -/

@[simp] theorem DecState.emit_inLen (px : Pixel) (d : DecState) : (d.emit px).inLen = d.inLen := rfl
@[simp] theorem DecState.emit_width (px : Pixel) (d : DecState) : (d.emit px).width = d.width := rfl
@[simp] theorem DecState.emit_height (px : Pixel) (d : DecState) : (d.emit px).height = d.height := rfl
@[simp] theorem DecState.emit_channels (px : Pixel) (d : DecState) : (d.emit px).channels = d.channels := rfl
@[simp] theorem DecState.emit_colorspace (px : Pixel) (d : DecState) : (d.emit px).colorspace = d.colorspace := rfl
@[simp] theorem DecState.emit_outLen (px : Pixel) (d : DecState) : (d.emit px).outLen = d.outLen := rfl
@[simp] theorem DecState.emit_prev (px : Pixel) (d : DecState) : (d.emit px).prev = px := rfl
@[simp] theorem DecState.emit_cache (px : Pixel) (d : DecState) : (d.emit px).cache = cacheStore d.cache px := rfl
@[simp] theorem DecState.emit_rp (px : Pixel) (d : DecState) : (d.emit px).rp = d.rp := rfl
@[simp] theorem DecState.emit_pend (px : Pixel) (d : DecState) : (d.emit px).pend = d.pend := rfl
@[simp] theorem DecState.emit_found (px : Pixel) (d : DecState) : (d.emit px).found = d.found := rfl
@[simp] theorem DecState.emit_po (px : Pixel) (d : DecState) : (d.emit px).po = d.po + 1 := rfl
@[simp] theorem DecState.emit_status (px : Pixel) (d : DecState) : (d.emit px).status = d.status := rfl
@[simp] theorem DecState.emit_err (px : Pixel) (d : DecState) : (d.emit px).err = d.err := rfl
@[simp] theorem DecState.emit_inMem (px : Pixel) (d : DecState) : (d.emit px).inMem = d.inMem := rfl
@[simp] theorem DecState.emit_outMem (px : Pixel) (d : DecState) : (d.emit px).outMem = d.outMem.writeBytes d.outAddr (DecState.pixelBytes d.channels px) := rfl

/-! ### The advance of `DEC_RP` (R211) -/

@[simp] theorem DecState.advance_inLen (l : Nat) (d : DecState) : (d.advance l).inLen = d.inLen := rfl
@[simp] theorem DecState.advance_width (l : Nat) (d : DecState) : (d.advance l).width = d.width := rfl
@[simp] theorem DecState.advance_height (l : Nat) (d : DecState) : (d.advance l).height = d.height := rfl
@[simp] theorem DecState.advance_channels (l : Nat) (d : DecState) : (d.advance l).channels = d.channels := rfl
@[simp] theorem DecState.advance_colorspace (l : Nat) (d : DecState) : (d.advance l).colorspace = d.colorspace := rfl
@[simp] theorem DecState.advance_outLen (l : Nat) (d : DecState) : (d.advance l).outLen = d.outLen := rfl
@[simp] theorem DecState.advance_prev (l : Nat) (d : DecState) : (d.advance l).prev = d.prev := rfl
@[simp] theorem DecState.advance_cache (l : Nat) (d : DecState) : (d.advance l).cache = d.cache := rfl
@[simp] theorem DecState.advance_rp (l : Nat) (d : DecState) : (d.advance l).rp = d.rp + l := rfl
@[simp] theorem DecState.advance_pend (l : Nat) (d : DecState) : (d.advance l).pend = d.pend := rfl
@[simp] theorem DecState.advance_found (l : Nat) (d : DecState) : (d.advance l).found = d.found := rfl
@[simp] theorem DecState.advance_po (l : Nat) (d : DecState) : (d.advance l).po = d.po := rfl
@[simp] theorem DecState.advance_status (l : Nat) (d : DecState) : (d.advance l).status = d.status := rfl
@[simp] theorem DecState.advance_err (l : Nat) (d : DecState) : (d.advance l).err = d.err := rfl
@[simp] theorem DecState.advance_inMem (l : Nat) (d : DecState) : (d.advance l).inMem = d.inMem := rfl
@[simp] theorem DecState.advance_outMem (l : Nat) (d : DecState) : (d.advance l).outMem = d.outMem := rfl

/-! ### `raise` in DEC (R251) -/

@[simp] theorem DecState.raise_inLen (c : DecCause) (d : DecState) : (d.raise c).inLen = d.inLen := rfl
@[simp] theorem DecState.raise_width (c : DecCause) (d : DecState) : (d.raise c).width = d.width := rfl
@[simp] theorem DecState.raise_height (c : DecCause) (d : DecState) : (d.raise c).height = d.height := rfl
@[simp] theorem DecState.raise_channels (c : DecCause) (d : DecState) : (d.raise c).channels = d.channels := rfl
@[simp] theorem DecState.raise_colorspace (c : DecCause) (d : DecState) : (d.raise c).colorspace = d.colorspace := rfl
@[simp] theorem DecState.raise_outLen (c : DecCause) (d : DecState) : (d.raise c).outLen = d.outLen := rfl
@[simp] theorem DecState.raise_prev (c : DecCause) (d : DecState) : (d.raise c).prev = d.prev := rfl
@[simp] theorem DecState.raise_cache (c : DecCause) (d : DecState) : (d.raise c).cache = d.cache := rfl
@[simp] theorem DecState.raise_rp (c : DecCause) (d : DecState) : (d.raise c).rp = d.rp := rfl
@[simp] theorem DecState.raise_pend (c : DecCause) (d : DecState) : (d.raise c).pend = d.pend := rfl
@[simp] theorem DecState.raise_found (c : DecCause) (d : DecState) : (d.raise c).found = d.found := rfl
@[simp] theorem DecState.raise_po (c : DecCause) (d : DecState) : (d.raise c).po = d.po := rfl
@[simp] theorem DecState.raise_status (c : DecCause) (d : DecState) : (d.raise c).status = .error := rfl
@[simp] theorem DecState.raise_err (c : DecCause) (d : DecState) : (d.raise c).err = some c := rfl
@[simp] theorem DecState.raise_inMem (c : DecCause) (d : DecState) : (d.raise c).inMem = d.inMem := rfl
@[simp] theorem DecState.raise_outMem (c : DecCause) (d : DecState) : (d.raise c).outMem = d.outMem := rfl

/-! ### Operation start in DEC (R281) -/

@[simp] theorem DecState.init_inLen (d : DecState) : (d.init).inLen = d.inLen := rfl
@[simp] theorem DecState.init_width (d : DecState) : (d.init).width = d.width := rfl
@[simp] theorem DecState.init_height (d : DecState) : (d.init).height = d.height := rfl
@[simp] theorem DecState.init_channels (d : DecState) : (d.init).channels = d.channels := rfl
@[simp] theorem DecState.init_colorspace (d : DecState) : (d.init).colorspace = d.colorspace := rfl
@[simp] theorem DecState.init_outLen (d : DecState) : (d.init).outLen = d.outLen := rfl
@[simp] theorem DecState.init_prev (d : DecState) : (d.init).prev = Config.prevInit := rfl
@[simp] theorem DecState.init_cache (d : DecState) : (d.init).cache = emptyCache := rfl
@[simp] theorem DecState.init_rp (d : DecState) : (d.init).rp = 14 := rfl
@[simp] theorem DecState.init_pend (d : DecState) : (d.init).pend = d.pend := rfl
@[simp] theorem DecState.init_found (d : DecState) : (d.init).found = d.found := rfl
@[simp] theorem DecState.init_po (d : DecState) : (d.init).po = 0 := rfl
@[simp] theorem DecState.init_status (d : DecState) : (d.init).status = d.status := rfl
@[simp] theorem DecState.init_err (d : DecState) : (d.init).err = d.err := rfl
@[simp] theorem DecState.init_inMem (d : DecState) : (d.init).inMem = d.inMem := rfl
@[simp] theorem DecState.init_outMem (d : DecState) : (d.init).outMem = d.outMem := rfl

/-! ### A truncated instruction (R203) -/

@[simp] theorem DecState.skipTruncated_inLen (d : DecState) : (d.skipTruncated).inLen = d.inLen := rfl
@[simp] theorem DecState.skipTruncated_width (d : DecState) : (d.skipTruncated).width = d.width := rfl
@[simp] theorem DecState.skipTruncated_height (d : DecState) : (d.skipTruncated).height = d.height := rfl
@[simp] theorem DecState.skipTruncated_channels (d : DecState) : (d.skipTruncated).channels = d.channels := rfl
@[simp] theorem DecState.skipTruncated_colorspace (d : DecState) : (d.skipTruncated).colorspace = d.colorspace := rfl
@[simp] theorem DecState.skipTruncated_outLen (d : DecState) : (d.skipTruncated).outLen = d.outLen := rfl
@[simp] theorem DecState.skipTruncated_prev (d : DecState) : (d.skipTruncated).prev = d.prev := rfl
@[simp] theorem DecState.skipTruncated_cache (d : DecState) : (d.skipTruncated).cache = d.cache := rfl
@[simp] theorem DecState.skipTruncated_rp (d : DecState) : (d.skipTruncated).rp = d.pend := rfl
@[simp] theorem DecState.skipTruncated_pend (d : DecState) : (d.skipTruncated).pend = d.pend := rfl
@[simp] theorem DecState.skipTruncated_found (d : DecState) : (d.skipTruncated).found = d.found := rfl
@[simp] theorem DecState.skipTruncated_po (d : DecState) : (d.skipTruncated).po = d.po := rfl
@[simp] theorem DecState.skipTruncated_status (d : DecState) : (d.skipTruncated).status = d.status := rfl
@[simp] theorem DecState.skipTruncated_err (d : DecState) : (d.skipTruncated).err = d.err := rfl
@[simp] theorem DecState.skipTruncated_inMem (d : DecState) : (d.skipTruncated).inMem = d.inMem := rfl
@[simp] theorem DecState.skipTruncated_outMem (d : DecState) : (d.skipTruncated).outMem = d.outMem := rfl

/-! ### The schedule (log 4) -/

@[simp] theorem popTurn_enc (s : State) : (popTurn s).enc = s.enc := rfl
@[simp] theorem popTurn_dec (s : State) : (popTurn s).dec = s.dec := rfl
@[simp] theorem popTurn_host (s : State) : (popTurn s).host = s.host := rfl
@[simp] theorem popTurn_turns (s : State) : (popTurn s).turns = s.turns.tail := rfl
@[simp] theorem popTurn_hostData (s : State) : (popTurn s).hostData = s.hostData := rfl
@[simp] theorem popTurn_freeCount (s : State) : (popTurn s).freeCount = s.freeCount := rfl

end Sys2Proof.Machine
end

