-- ==== Sys2Proof/Laws/Ops.lean ====
section
/-! SUPPORT. One lemma per shared operation: everything it can do. -/

namespace Sys2Proof.Machine

/-! ### Numbers -/

/-- `u8` is reduction modulo 256 (R8). -/
theorem u8_toNat (v : Int) : ((u8 v).toNat : Int) = v % 256 := by
  simp [u8, BitVec.toNat_ofInt]; omega

/-- `s8(v)` is congruent to `v` modulo 256 (R8). -/
theorem s8_mod (v : Int) : s8 v % 256 = v % 256 := by
  unfold s8; dsimp only; split <;> omega

/-- `s8` lies in -128..127 (R8). -/
theorem s8_range (v : Int) : -128 ≤ s8 v ∧ s8 v ≤ 127 := by
  unfold s8; dsimp only; split <;> omega

/-- A byte is determined by its value. -/
theorem byte_ext {x y : Byte} (h : x.toNat = y.toNat) : x = y := BitVec.eq_of_toNat_eq h

/-- A wrapped delta added back gives the byte (R168, R207, R216 (5)). -/
theorem u8_add_delta (x p : Byte) : u8 ((p.toNat : Int) + delta x p) = x := by
  apply byte_ext
  have h := u8_toNat ((p.toNat : Int) + delta x p)
  have hs := s8_mod ((x.toNat : Int) - p.toNat)
  have hx := x.isLt
  unfold delta at *
  omega

/-- A delta is 0 exactly where the bytes are equal (R169). -/
theorem delta_eq_zero {x p : Byte} (h : delta x p = 0) : x = p := by
  apply byte_ext
  have hs := s8_mod ((x.toNat : Int) - p.toNat)
  have hx := x.isLt
  have hp := p.isLt
  unfold delta at h
  omega

/-! ### Colour caches -/

@[simp] theorem cacheGet_store_same (c : Cache) (p : Pixel) : cacheGet (cacheStore c p) (pixelHash p) = p := by
  simp [cacheGet, cacheStore]

theorem cacheGet_store_other {c : Cache} {p : Pixel} {i : Slot} (h : i ≠ pixelHash p) :
    cacheGet (cacheStore c p) i = cacheGet c i := by
  have : (pixelHash p).val ≠ i.val := fun e => h (Fin.ext e.symm)
  simp [cacheGet, cacheStore, this]

/-- The slot read after a store (R28, R34: last write wins). -/
theorem cacheGet_store (c : Cache) (p : Pixel) (i : Slot) :
    cacheGet (cacheStore c p) i = if i = pixelHash p then p else cacheGet c i := by
  split
  · next h => rw [h, cacheGet_store_same]
  · next h => exact cacheGet_store_other h

@[simp] theorem cacheGet_empty (i : Slot) : cacheGet emptyCache i = Config.empty := by
  simp [cacheGet, emptyCache]

/-- Two caches with equal slots are equal. -/
theorem cache_ext {c c' : Cache} (h : ∀ i, cacheGet c i = cacheGet c' i) : c = c' := by
  apply Vector.ext
  intro i hi
  exact h ⟨i, hi⟩

/-- Storing a pixel twice is storing it once (R209). -/
theorem cacheStore_store (c : Cache) (p : Pixel) : cacheStore (cacheStore c p) p = cacheStore c p := by
  apply cache_ext
  intro i
  simp only [cacheGet_store]
  split <;> rfl

/-! ### The byte stream writer -/

/-- `append` writes exactly its bytes (R176). -/
theorem EncState.append_spec (bs : List Byte) (e : EncState) : Appended bs e (e.append bs) where
  wp := rfl
  bytes := Memory.readBytes_writeBytes
  frame _ h := Memory.read_writeBytes_outside h

/-- Two appends are one append of both. -/
theorem EncState.append_append (bs cs : List Byte) (e : EncState) :
    (e.append bs).append cs = e.append (bs ++ cs) := by
  have h : ∀ (m : Memory) (a : Nat) (xs ys : List Byte),
      (m.writeBytes a xs).writeBytes (a + xs.length) ys = m.writeBytes a (xs ++ ys) := by
    intro m a xs
    induction xs generalizing m a with
    | nil => intro ys; rfl
    | cons x xs ih =>
      intro ys
      have := ih (m.write a x) (a + 1) ys
      simpa [Memory.writeBytes, Nat.add_assoc, Nat.add_comm, Nat.add_left_comm] using this
  simp [append, h, Nat.add_assoc]

/-! ### The pixel-emit primitive -/

theorem DecState.pixelBytes_length {c : Byte} (h : channelsOk c) (p : Pixel) :
    (pixelBytes c p).length = c.toNat := by
  rcases h with rfl | rfl <;> rfl

/-- What `k` emissions of one pixel leave in the registers they do not write. -/
theorem DecState.emitTimes_frame (k : Nat) (p : Pixel) (d : DecState) :
    d.emitTimes k p = { d with
      prev := (d.emitTimes k p).prev, cache := (d.emitTimes k p).cache, po := d.po + k,
      outMem := (d.emitTimes k p).outMem } := by
  induction k generalizing d with
  | zero => rfl
  | succ k ih =>
    rw [show d.emitTimes (k + 1) p = (d.emit p).emitTimes k p from rfl]
    have := ih (d.emit p)
    rw [this]
    simp [emit, Nat.add_comm, Nat.add_left_comm]

/-- `k + 1` emissions of one pixel: one store, one new previous pixel. -/
theorem DecState.emitTimes_succ (k : Nat) (p : Pixel) (d : DecState) :
    (d.emitTimes (k + 1) p).prev = p ∧ (d.emitTimes (k + 1) p).cache = cacheStore d.cache p := by
  induction k generalizing d with
  | zero => exact ⟨rfl, rfl⟩
  | succ k ih =>
    obtain ⟨h1, h2⟩ := ih (d.emit p)
    exact ⟨h1, by rw [show d.emitTimes (k + 1 + 1) p = (d.emit p).emitTimes (k + 1) p from rfl, h2]; simp [cacheStore_store]⟩

/-- The bytes of `DEC_OUT` after `k` emissions of one pixel. -/
theorem DecState.emitTimes_read {d : DecState} (hc : channelsOk d.channels) (k : Nat) (p : Pixel) (x : Nat) :
    (d.emitTimes k p).outMem.read x =
      if d.po * d.channels.toNat ≤ x ∧ x < (d.po + k) * d.channels.toNat then
        (pixelBytes d.channels p)[(x - d.po * d.channels.toNat) % d.channels.toNat]?
      else d.outMem.read x := by
  have hlen := pixelBytes_length hc p
  have hpos : 0 < d.channels.toNat := by rcases hc with h | h <;> rw [h] <;> decide
  induction k generalizing d with
  | zero => rw [if_neg (by simp)]; rfl
  | succ k ih =>
    rw [show d.emitTimes (k + 1) p = (d.emit p).emitTimes k p from rfl, ih (d := d.emit p) hc hlen hpos]
    simp only [emit_po, emit_channels, emit_outMem, Memory.read_writeBytes, hlen, outAddr]
    generalize hC : d.channels.toNat = C at *
    have e1 : (d.po + 1) * C = d.po * C + C := by ring
    have e2 : (d.po + 1 + k) * C = d.po * C + C + k * C := by ring
    have e3 : (d.po + (k + 1)) * C = d.po * C + C + k * C := by ring
    rw [e1, e2, e3]
    by_cases h1 : d.po * C + C ≤ x ∧ x < d.po * C + C + k * C
    · rw [if_pos h1, if_pos (by omega)]
      rw [show x - d.po * C = (x - (d.po * C + C)) + C by omega, Nat.add_mod_right]
    · rw [if_neg h1]
      by_cases h2 : d.po * C ≤ x ∧ x < d.po * C + C
      · rw [if_pos h2, if_pos (by omega), Nat.mod_eq_of_lt (by omega)]
      · rw [if_neg h2, if_neg (by omega)]

/-- Everything `k ≥ 1` emissions of one pixel and an advance do (R209 to R211). -/
theorem emitted_of_emitTimes {s : State} (hc : channelsOk s.dec.channels) {k : Nat} (hk : 0 < k) (p : Pixel) (l : Nat) :
    Emitted k p l s { s with dec := (s.dec.emitTimes k p).advance l } := by
  obtain ⟨j, rfl⟩ : ∃ j, k = j + 1 := ⟨k - 1, by omega⟩
  obtain ⟨h1, h2⟩ := DecState.emitTimes_succ j p s.dec
  have hf := DecState.emitTimes_frame (j + 1) p s.dec
  have hread := DecState.emitTimes_read hc (j + 1) p
  have hout : ∀ C : Nat, s.dec.channels.toNat = C → (DecState.pixelBytes s.dec.channels p).length = C →
      ∀ i, i < j + 1 → (s.dec.emitTimes (j + 1) p).outMem.readBytes ((s.dec.po + i) * C) C =
        some (DecState.pixelBytes s.dec.channels p) := by
    intro C hC hlen i hi
    refine Memory.readBytes_eq_some.2 ⟨hlen, fun n hn => ?_⟩
    rw [hread, hC]
    have e1 : (s.dec.po + i) * C = s.dec.po * C + i * C := by ring
    have e2 : (s.dec.po + (j + 1)) * C = s.dec.po * C + (j + 1) * C := by ring
    have e3 : i * C + C ≤ (j + 1) * C := by
      have := Nat.mul_le_mul_right C (show i + 1 ≤ j + 1 by omega)
      rw [Nat.add_mul, Nat.one_mul] at this; exact this
    rw [e1, e2, if_pos (by omega), show s.dec.po * C + i * C + n - s.dec.po * C = n + i * C by omega,
      Nat.add_mul_mod_self_right, Nat.mod_eq_of_lt hn]
  exact {
    prev := h1
    slot := by simp [h2]
    other_slots := fun i hi => by simpa [h2] using cacheGet_store_other hi
    po := by rw [DecState.advance_po, hf]
    rp := by rw [DecState.advance_rp, hf]
    out_four := fun h i hi => by
      have := hout 4 (by rw [h]; rfl) (by rw [h]; rfl) i hi
      simpa [h, DecState.pixelBytes] using this
    out_three := fun h i hi => by
      have := hout 3 (by rw [h]; rfl) (by rw [h]; rfl) i hi
      simpa [h, DecState.pixelBytes] using this
    out_frame := fun a ha => by
      rw [DecState.advance_outMem, hread, if_neg (by omega)]
    rest := by
      have hp : (s.dec.emitTimes (j + 1) p).po = s.dec.po + (j + 1) := by rw [hf]
      have hr : (s.dec.emitTimes (j + 1) p).rp = s.dec.rp := by rw [hf]
      simp only [State.mk.injEq, and_true, true_and, DecState.advance_po, DecState.advance_rp, hp, hr]
      conv_lhs => rw [hf]
      rfl }

/-- Everything one emission and an advance do: the effect of every instruction but `RUN` (R210, R211). -/
theorem emitted_of_emit {s : State} (hc : channelsOk s.dec.channels) (p : Pixel) (l : Nat) :
    Emitted 1 p l s { s with dec := (s.dec.emit p).advance l } :=
  emitted_of_emitTimes hc (k := 1) (by omega) p l

/-! ### Parts of the synchroniser -/

/-- What a part of an operation can do after another one (R13, R251). -/
theorem thenBusy_eq_next {x : DecOutcome} {f : DecState → DecOutcome} {t : DecState} (h : thenBusy x f = .next t) :
    (∃ d, x = .next d ∧ d.status = .busy ∧ f d = .next t) ∨ (x = .next t ∧ t.status ≠ .busy) := by
  unfold thenBusy at h
  split at h
  · next d =>
    split at h
    · next hb => exact .inl ⟨d, rfl, hb, h⟩
    · next hb =>
      have : d = t := by simpa using h
      subst this
      exact .inr ⟨rfl, hb⟩
  · cases h
  · cases h

@[simp] theorem thenBusy_next_busy {d : DecState} {f : DecState → DecOutcome} (h : d.status = .busy) :
    thenBusy (.next d) f = f d := by simp [thenBusy, h]

@[simp] theorem thenBusy_next_raise {d : DecState} {c : DecCause} {f : DecState → DecOutcome} :
    thenBusy (.next (d.raise c)) f = .next (d.raise c) := by simp [thenBusy]

/-- What the trailer scan finds (R137). -/
theorem scanFrom_spec (m : Memory) (n p : Nat) :
    match scanFrom m n p with
    | .found q => p ≤ q ∧ q < p + n ∧ m.readBytes q 8 = some Config.trailer ∧
        ∀ r, p ≤ r → r < q → m.readBytes r 8 ≠ some Config.trailer
    | .notFound => ∀ r, p ≤ r → r < p + n → ∃ w, m.readBytes r 8 = some w ∧ w ≠ Config.trailer
    | .unplaced => ∃ r, p ≤ r ∧ r < p + n ∧ m.readBytes r 8 = none := by
  induction n generalizing p with
  | zero => simp only [scanFrom]; intro r h1 h2; omega
  | succ n ih =>
    simp only [scanFrom]
    cases hw : m.readBytes p 8 with
    | none => exact ⟨p, by omega, by omega, hw⟩
    | some w =>
      by_cases ht : w = Config.trailer
      · simp only [ht, if_true]
        exact ⟨by omega, by omega, by rw [hw, ht], fun r h1 h2 => by omega⟩
      · simp only [if_neg ht]
        have := ih (p + 1)
        cases hs : scanFrom m n (p + 1) with
        | found q =>
          rw [hs] at this
          obtain ⟨h1, h2, h3, h4⟩ := this
          refine ⟨by omega, by omega, h3, fun r hr1 hr2 => ?_⟩
          by_cases hrp : r = p
          · subst hrp; rw [hw]; simpa using ht
          · exact h4 r (by omega) hr2
        | notFound =>
          rw [hs] at this
          intro r hr1 hr2
          by_cases hrp : r = p
          · subst hrp; exact ⟨w, hw, ht⟩
          · exact this r (by omega) (by omega)
        | unplaced =>
          rw [hs] at this
          obtain ⟨r, h1, h2, h3⟩ := this
          exact ⟨r, by omega, by omega, h3⟩

end Sys2Proof.Machine
end

