-- ==== Sys2Proof/Laws/PerInstr.lean ====
section
/-! SUPPORT. The family `EncodeLength`: an instruction's bytes are as many as its class says, and its first byte
selects that class (R97, R98). -/

namespace Sys2Proof.Laws.EncodeLength

/-- The bytes of a well-formed instruction begin with a byte whose class has the instruction's length. -/
def Statement (i : Instr) : Prop :=
  i.WellFormed → ∃ b0 tl, encode i = b0 :: tl ∧ (classify b0).length = i.length ∧ tl.length + 1 = i.length

theorem rgb (r g b : Byte) : Statement (.rgb r g b) := fun _ => ⟨_, _, rfl, rfl, rfl⟩

theorem rgba (r g b a : Byte) : Statement (.rgba r g b a) := fun _ => ⟨_, _, rfl, rfl, rfl⟩

theorem index (idx : Slot) : Statement (.index idx) := fun _ =>
  ⟨_, _, rfl, by revert idx; decide, rfl⟩

/-- The first byte of `DIFF`, for each value of its three fields. -/
theorem diff_class : ∀ x y z : Fin 4,
    classify (0x40 ||| BitVec.ofNat 8 x.val <<< 4 ||| BitVec.ofNat 8 y.val <<< 2 ||| BitVec.ofNat 8 z.val) = .diff := by
  decide

/-- A biased field in range is a small number. -/
theorem biased_eq {v bias : Int} {n : Nat} (h : v + bias = n) : biased v bias = BitVec.ofNat 8 n := by
  unfold biased; rw [h]; simp

theorem diff (dr dg db : Int) : Statement (.diff dr dg db) := fun h => by
  refine ⟨_, _, rfl, ?_, rfl⟩
  simp only [Instr.WellFormed, Instr.wellFormed, Bool.and_eq_true, decide_eq_true_eq] at h
  obtain ⟨⟨hr, hg⟩, hb⟩ := h
  obtain ⟨x, hx⟩ : ∃ x : Fin 4, dr + 2 = x.val := ⟨⟨(dr + 2).toNat, by omega⟩, by simp; omega⟩
  obtain ⟨y, hy⟩ : ∃ y : Fin 4, dg + 2 = y.val := ⟨⟨(dg + 2).toNat, by omega⟩, by simp; omega⟩
  obtain ⟨z, hz⟩ : ∃ z : Fin 4, db + 2 = z.val := ⟨⟨(db + 2).toNat, by omega⟩, by simp; omega⟩
  rw [biased_eq hx, biased_eq hy, biased_eq hz, diff_class]
  rfl

/-- The first byte of `LUMA`, for each value of its field. -/
theorem luma_class : ∀ x : Fin 64, classify (0x80 ||| BitVec.ofNat 8 x.val) = .luma := by decide

theorem luma (dg drg dbg : Int) : Statement (.luma dg drg dbg) := fun h => by
  refine ⟨_, _, rfl, ?_, rfl⟩
  simp only [Instr.WellFormed, Instr.wellFormed, Bool.and_eq_true, decide_eq_true_eq] at h
  obtain ⟨x, hx⟩ : ∃ x : Fin 64, dg + 32 = x.val := ⟨⟨(dg + 32).toNat, by omega⟩, by simp; omega⟩
  rw [biased_eq hx, luma_class]
  rfl

/-- The first byte of `RUN`, for each value of its field. -/
theorem run_class : ∀ x : Fin 62, classify (0xC0 ||| BitVec.ofNat 8 x.val) = .run := by decide

theorem run (length : Nat) : Statement (.run length) := fun h => by
  refine ⟨_, _, rfl, ?_, rfl⟩
  simp only [Instr.WellFormed, Instr.wellFormed, decide_eq_true_eq] at h
  have := run_class ⟨length - 1, by omega⟩
  rw [this]
  rfl

end Sys2Proof.Laws.EncodeLength
end

