-- ==== Sys2Proof/Laws/Step.lean ====
section
/-! SUPPORT. Said once: what an instruction, a move of each engine and a host command can do. -/

namespace Sys2Proof.Machine

/-! ### Instructions -/

/-- Every instruction answers a next state: some emissions of one pixel and the advance by its length (R210, R211). -/
theorem exec_eq (i : Instr) (s : State) : ∃ k px,
    exec i s = .next { s with dec := (s.dec.emitTimes k px).advance i.length } ∧
    (k = 1 ∨ k ≤ s.dec.quota - s.dec.po) := by
  cases i with
  | rgb r g b => exact ⟨1, _, rfl, .inl rfl⟩
  | rgba r g b a => exact ⟨1, _, rfl, .inl rfl⟩
  | index idx => exact ⟨1, _, rfl, .inl rfl⟩
  | diff dr dg db => exact ⟨1, _, rfl, .inl rfl⟩
  | luma dg drg dbg => exact ⟨1, _, rfl, .inl rfl⟩
  | run length => exact ⟨runCount length s.dec, s.dec.prev, rfl, .inr (Nat.min_le_right _ _)⟩

/-! ### The decoder's move -/

/-- What an instruction fetch takes: the first byte and as many bytes as its class needs and the payload has (R202,
R203). -/
theorem fetchInstr_eq_some {d : DecState} {bs : List Byte} (h : fetchInstr d = some bs) (hp : d.rp < d.pend) :
    ∃ b0 tl, bs = b0 :: tl ∧ d.inMem.read d.rp = some b0 ∧
      tl.length + 1 = min (classify b0).length (d.pend - d.rp) := by
  unfold fetchInstr at h
  cases hb : d.inMem.read d.rp with
  | none => simp [hb] at h
  | some b0 =>
    simp only [hb] at h
    have hl := (classify b0).length_range
    obtain ⟨n, hn⟩ : ∃ n, min (classify b0).length (d.pend - d.rp) = n + 1 :=
      ⟨min (classify b0).length (d.pend - d.rp) - 1, by omega⟩
    rw [hn] at h
    have hlen := Memory.length_of_readBytes h
    have h0 := Memory.read_of_readBytes h (i := 0) (by omega)
    cases bs with
    | nil => simp at hlen
    | cons b tl =>
      refine ⟨b, tl, rfl, ?_, ?_⟩
      · rw [← hb]; simpa using h0
      · have : b0 = b := by rw [Nat.add_zero, hb] at h0; simpa using h0
        subst this
        rw [hn]; simpa using hlen

/-- Everything one move of DEC can do (R200 to R212). -/
theorem decMove_cases {s t : State} (h : decMove s = .next t) :
    (s.dec.status ≠ .busy ∧ t = s) ∨
    (s.dec.status = .busy ∧ ¬ decMore s.dec ∧ t = { s with dec := s.dec.finish }) ∨
    (s.dec.status = .busy ∧ decMore s.dec ∧ ∃ b0, s.dec.inMem.read s.dec.rp = some b0 ∧
      ((s.dec.pend < s.dec.rp + (classify b0).length ∧ t = { s with dec := s.dec.skipTruncated }) ∨
       (s.dec.rp + (classify b0).length ≤ s.dec.pend ∧
        ∃ k px, t = { s with dec := (s.dec.emitTimes k px).advance (classify b0).length } ∧
          (k = 1 ∨ k ≤ s.dec.quota - s.dec.po)))) := by
  unfold decMove at h
  by_cases hb : s.dec.status = .busy
  · rw [if_pos hb] at h
    by_cases hm : decMore s.dec
    · rw [if_pos hm] at h
      refine .inr (.inr ⟨hb, hm, ?_⟩)
      unfold decInstr at h
      cases hf : fetchInstr s.dec with
      | none => simp [hf] at h
      | some bs =>
        obtain ⟨b0, tl, rfl, hread, hlen⟩ := fetchInstr_eq_some hf hm.1
        simp only [hf] at h
        refine ⟨b0, hread, ?_⟩
        cases hd : decode (b0 :: tl) with
        | error e =>
          simp only [hd] at h
          have := (decode_cons_error hd).2
          exact .inl ⟨by omega, by simpa using h.symm⟩
        | ok p =>
          obtain ⟨i, rest⟩ := p
          simp only [hd] at h
          obtain ⟨hl, hle, -⟩ := decode_cons_ok hd
          obtain ⟨k, px, hex, hk⟩ := exec_eq i s
          rw [hex, hl] at h
          exact .inr ⟨by omega, k, px, by simpa using h.symm, hk⟩
    · rw [if_neg hm] at h
      exact .inr (.inl ⟨hb, hm, by simpa using h.symm⟩)
  · rw [if_neg hb] at h
    exact .inl ⟨hb, by simpa using h.symm⟩

/-- DEC stops on nothing but an unplaced byte of the payload. -/
theorem decMove_stop (s : State) : (∃ t, decMove s = .next t) ∨
    (decMove s = .fault .inputNotPlaced ∧ ∃ a, s.dec.rp ≤ a ∧ a < s.dec.pend ∧ s.dec.inMem.read a = none) := by
  unfold decMove
  split
  · split
    · next hm =>
      unfold decInstr
      cases hf : fetchInstr s.dec with
      | none =>
        refine .inr ⟨rfl, ?_⟩
        unfold fetchInstr at hf
        cases hb : s.dec.inMem.read s.dec.rp with
        | none => exact ⟨s.dec.rp, le_rfl, hm.1, hb⟩
        | some b0 =>
          simp only [hb] at hf
          obtain ⟨x, h1, h2, h3⟩ := Memory.exists_read_none hf
          exact ⟨x, h1, by omega, h3⟩
      | some bs =>
        left
        simp only
        split
        · next i _ _ => exact ⟨_, (exec_eq i s).choose_spec.choose_spec.1⟩
        · exact ⟨_, rfl⟩
    · exact .inl ⟨_, rfl⟩
  · exact .inl ⟨_, rfl⟩

/-- DEC's move reads nothing of the rest of the block: it acts on the engine alone. -/
theorem decMove_with (s : State) (e : EncState) (hs : List HostCmd) (ts : List Agent) :
    decMove { s with enc := e, host := hs, turns := ts } =
      mapOutcome (fun t => { t with enc := e, host := hs, turns := ts }) (decMove s) := by
  simp only [decMove]
  split
  · split
    · simp only [decInstr]
      cases fetchInstr s.dec with
      | none => rfl
      | some bs =>
        simp only
        cases decode bs with
        | error e => rfl
        | ok p =>
          obtain ⟨i, rest⟩ := p
          cases i <;> rfl
    · rfl
  · rfl

/-! ### The synchroniser -/

/-- What one part of the synchroniser can leave: the registers it may write (R134 to R139). -/
structure SyncWrites (d t : DecState) : Prop where
  inLen : t.inLen = d.inLen
  inMem : t.inMem = d.inMem
  outMem : t.outMem = d.outMem
  working : t.prev = d.prev ∧ t.cache = d.cache ∧ t.rp = d.rp ∧ t.po = d.po

theorem SyncWrites.refl (d : DecState) : SyncWrites d d := ⟨rfl, rfl, rfl, rfl, rfl, rfl, rfl⟩

theorem SyncWrites.trans {d u t : DecState} (h : SyncWrites d u) (h' : SyncWrites u t) : SyncWrites d t where
  inLen := h'.inLen.trans h.inLen
  inMem := h'.inMem.trans h.inMem
  outMem := h'.outMem.trans h.outMem
  working := ⟨h'.working.1.trans h.working.1, h'.working.2.1.trans h.working.2.1,
    h'.working.2.2.1.trans h.working.2.2.1, h'.working.2.2.2.trans h.working.2.2.2⟩

/-- What the synchroniser leaves when it passes (R140). -/
structure SyncPassed (d t : DecState) : Prop where
  busy : t.status = .busy
  err : t.err = none
  writes : SyncWrites d t
  channels : channelsOk t.channels
  len : 22 ≤ d.inLen
  pend : 14 ≤ t.pend ∧ t.pend ≤ d.inLen
  outLen : t.outLen = t.channels.toNat * t.width.toNat * t.height.toNat
  magic : d.inMem.readBytes 0 4 = some Config.magic
  header : ∃ w h, d.inMem.readBytes 4 4 = some w ∧ d.inMem.readBytes 8 4 = some h ∧
    d.inMem.read 12 = some t.channels ∧ d.inMem.read 13 = some t.colorspace ∧
    t.width = BitVec.ofNat 32 (fromBe w) ∧ t.height = BitVec.ofNat 32 (fromBe h)
  scan : (t.found = true ∧ scanFrom d.inMem (d.inLen - 21) 14 = .found t.pend) ∨
    (t.found = false ∧ scanFrom d.inMem (d.inLen - 21) 14 = .notFound ∧ t.pend = d.inLen)

/-- Four bytes as a big-endian number fit 32 bits (R11). -/
theorem fromBe_lt {w : List Byte} (h : w.length = 4) : fromBe w < 2 ^ 32 := by
  rcases w with _ | ⟨a, _ | ⟨b, _ | ⟨c, _ | ⟨e, _ | ⟨f, w⟩⟩⟩⟩⟩ <;> simp at h
  have := a.isLt; have := b.isLt; have := c.isLt; have := e.isLt
  simp [fromBe]; omega

theorem lenCheck_cases {d t : DecState} (h : d.lenCheck = .next t) :
    (d.inLen < 22 ∧ t = d.raise .tooSmall) ∨ (22 ≤ d.inLen ∧ t = d) := by
  unfold DecState.lenCheck at h
  split at h
  · next hl => exact .inl ⟨hl, by simpa using h.symm⟩
  · next hl => exact .inr ⟨by omega, by simpa using h.symm⟩

theorem magicCheck_cases {d t : DecState} (h : d.magicCheck = .next t) :
    (t = d.raise .magic ∧ d.inMem.readBytes 0 4 ≠ some Config.magic) ∨
    (t = d ∧ d.inMem.readBytes 0 4 = some Config.magic) := by
  unfold DecState.magicCheck at h
  cases hr : d.inMem.readBytes 0 4 with
  | none => simp [hr] at h
  | some bs =>
    simp only [hr] at h
    split at h
    · next hm => exact .inr ⟨by simpa using h.symm, by rw [hm]⟩
    · next hm => exact .inl ⟨by simpa using h.symm, by simpa using hm⟩

theorem hdrParse_cases {d t : DecState} (h : d.hdrParse = .next t) :
    ∃ w hh c cs, d.inMem.readBytes 4 4 = some w ∧ d.inMem.readBytes 8 4 = some hh ∧
      d.inMem.read 12 = some c ∧ d.inMem.read 13 = some cs ∧
      t = { d with
        width := BitVec.ofNat 32 (fromBe w)
        height := BitVec.ofNat 32 (fromBe hh)
        channels := c
        colorspace := cs
        outLen := c.toNat * fromBe w * fromBe hh } := by
  unfold DecState.hdrParse at h
  split at h
  · next w hh c cs h1 h2 h3 h4 => exact ⟨w, hh, c, cs, h1, h2, h3, h4, by simpa using h.symm⟩
  · cases h

theorem trlScan_cases {d t : DecState} (h : d.trlScan = .next t) :
    (∃ p, scanFrom d.inMem (d.inLen - 21) 14 = .found p ∧ t = { d with found := true, pend := p }) ∨
    (scanFrom d.inMem (d.inLen - 21) 14 = .notFound ∧ t = { d with found := false, pend := d.inLen }) := by
  unfold DecState.trlScan at h
  split at h
  · next p hp => exact .inl ⟨p, hp, by simpa using h.symm⟩
  · next hp => exact .inr ⟨hp, by simpa using h.symm⟩
  · cases h

/-- The trailer check after a scan never raises (R138). -/
theorem trlCheck_after_scan {d t u : DecState} (h : d.trlScan = .next t) (h' : t.trlCheck = .next u) : u = t := by
  unfold DecState.trlCheck at h'
  rcases trlScan_cases h with ⟨p, hp, rfl⟩ | ⟨hp, rfl⟩
  · have hs := scanFrom_spec d.inMem (d.inLen - 21) 14
    rw [hp] at hs
    simp only [if_true, hs.2.2.1] at h'
    rw [if_pos (by decide)] at h'
    simpa using h'.symm
  · simpa using h'.symm

theorem chCheck_cases {d t : DecState} (h : d.chCheck = .next t) :
    (channelsOk d.channels ∧ t = d) ∨ (¬ channelsOk d.channels ∧ t = d.raise .channels) := by
  unfold DecState.chCheck at h
  split at h
  · next hc => exact .inl ⟨hc, by simpa using h.symm⟩
  · next hc => exact .inr ⟨hc, by simpa using h.symm⟩

/-- Everything the synchroniser can do on a BUSY engine (R133, R140): pass, or raise one of its four causes. -/
theorem sync_cases {d t : DecState} (hb : d.status = .busy) (he : d.err = none) (h : d.sync = .next t) :
    SyncPassed d t ∨
    (SyncWrites d t ∧ t.status = .error ∧
      (t.err = some .tooSmall ∨ t.err = some .magic ∨ t.err = some .channels)) := by
  unfold DecState.sync at h
  rcases thenBusy_eq_next h with ⟨d5, h5, hb5, hc⟩ | ⟨h5, hn5⟩
  · rcases thenBusy_eq_next h5 with ⟨d4, h4, hb4, ht⟩ | ⟨h4, hn4⟩
    · rcases thenBusy_eq_next h4 with ⟨d3, h3, hb3, hs⟩ | ⟨h3, hn3⟩
      · rcases thenBusy_eq_next h3 with ⟨d2, h2, hb2, hp⟩ | ⟨h2, hn2⟩
        · rcases thenBusy_eq_next h2 with ⟨d1, h1, hb1, hm⟩ | ⟨h1, hn1⟩
          · have e5 := trlCheck_after_scan hs ht
            subst e5
            obtain ⟨hl, rfl⟩ : 22 ≤ d.inLen ∧ d1 = d := by
              rcases lenCheck_cases h1 with ⟨-, rfl⟩ | h1
              · simp at hb1
              · exact h1
            obtain ⟨rfl, hmag⟩ : d2 = d1 ∧ d1.inMem.readBytes 0 4 = some Config.magic := by
              rcases magicCheck_cases hm with ⟨rfl, -⟩ | hm
              · simp at hb2
              · exact hm
            obtain ⟨w, hh, c, cs, hw, hhh, hcc, hcs, rfl⟩ := hdrParse_cases hp
            have hfw := fromBe_lt (Memory.length_of_readBytes hw)
            have hfh := fromBe_lt (Memory.length_of_readBytes hhh)
            have hpend : 14 ≤ d5.pend ∧ d5.pend ≤ d2.inLen := by
              rcases trlScan_cases hs with ⟨p, hsc, rfl⟩ | ⟨hsc, rfl⟩
              · have := scanFrom_spec d2.inMem (d2.inLen - 21) 14
                rw [show scanFrom d2.inMem (d2.inLen - 21) 14 = .found p from hsc] at this
                obtain ⟨h1, h2, -, -⟩ := this
                show 14 ≤ p ∧ p ≤ d2.inLen
                omega
              · show 14 ≤ d2.inLen ∧ d2.inLen ≤ d2.inLen
                omega
            have hscan : (d5.found = true ∧ scanFrom d2.inMem (d2.inLen - 21) 14 = .found d5.pend) ∨
                (d5.found = false ∧ scanFrom d2.inMem (d2.inLen - 21) 14 = .notFound ∧ d5.pend = d2.inLen) := by
              rcases trlScan_cases hs with ⟨p, hsc, rfl⟩ | ⟨hsc, rfl⟩
              · exact .inl ⟨rfl, hsc⟩
              · exact .inr ⟨rfl, hsc, rfl⟩
            have hrest : d5 = { d2 with
                width := BitVec.ofNat 32 (fromBe w), height := BitVec.ofNat 32 (fromBe hh), channels := c,
                colorspace := cs, outLen := c.toNat * fromBe w * fromBe hh,
                found := d5.found, pend := d5.pend } := by
              rcases trlScan_cases hs with ⟨p, hsc, rfl⟩ | ⟨hsc, rfl⟩ <;> rfl
            have hw5 : SyncWrites d2 d5 := by
              rw [hrest]; exact ⟨rfl, rfl, rfl, rfl, rfl, rfl, rfl⟩
            rcases chCheck_cases hc with ⟨hok, rfl⟩ | ⟨-, rfl⟩
            · left
              refine ⟨hb5, by rw [hrest]; exact he, hw5, hok, hl, hpend, ?_, hmag, ?_, hscan⟩
              · rw [hrest]
                simp only [BitVec.toNat_ofNat, Nat.mod_eq_of_lt hfw, Nat.mod_eq_of_lt hfh]
              · refine ⟨w, hh, hw, hhh, ?_, ?_, ?_, ?_⟩ <;> rw [hrest]
                · exact hcc
                · exact hcs
            · right
              exact ⟨⟨hw5.inLen, hw5.inMem, hw5.outMem, hw5.working⟩, rfl, .inr (.inr rfl)⟩
          · right
            rcases lenCheck_cases h1 with ⟨-, rfl⟩ | ⟨-, rfl⟩
            · exact absurd hb2 hn1
            · exact absurd hb2 hn1
        · right
          rcases thenBusy_eq_next h2 with ⟨d1, h1, hb1, hm⟩ | ⟨h1, hn1⟩
          · rcases lenCheck_cases h1 with ⟨-, rfl⟩ | ⟨-, rfl⟩
            · simp at hb1
            · rcases magicCheck_cases hm with ⟨rfl, -⟩ | ⟨rfl, -⟩
              · exact absurd hb3 hn2
              · exact absurd hb3 hn2
          · exact absurd hb3 hn2
      · exact absurd hb4 hn3
    · exact absurd hb5 hn4
  · right
    rcases thenBusy_eq_next h5 with ⟨d4, h4, hb4, ht⟩ | ⟨h4, hn4⟩
    · rcases thenBusy_eq_next h4 with ⟨d3, h3, hb3, hs⟩ | ⟨h3, hn3⟩
      · have e5 := trlCheck_after_scan hs ht
        subst e5
        exact absurd hb4 hn5
      · exact absurd hb4 hn3
    · rcases thenBusy_eq_next h4 with ⟨d3, h3, hb3, hs⟩ | ⟨h3, hn3⟩
      · exfalso
        rcases trlScan_cases hs with ⟨p, -, rfl⟩ | ⟨-, rfl⟩
        · exact hn4 hb3
        · exact hn4 hb3
      · rcases thenBusy_eq_next h3 with ⟨d2, h2, hb2, hp⟩ | ⟨h2, hn2⟩
        · exfalso
          obtain ⟨w, hh, c, cs, -, -, -, -, rfl⟩ := hdrParse_cases hp
          exact hn3 hb2
        · rcases thenBusy_eq_next h2 with ⟨d1, h1, hb1, hm⟩ | ⟨h1, hn1⟩
          · rcases lenCheck_cases h1 with ⟨-, rfl⟩ | ⟨-, rfl⟩
            · simp at hb1
            · rcases magicCheck_cases hm with ⟨rfl, -⟩ | ⟨rfl, -⟩
              · exact ⟨⟨rfl, rfl, rfl, rfl, rfl, rfl, rfl⟩, rfl, .inr (.inl rfl)⟩
              · exact absurd hb1 hn2
          · rcases lenCheck_cases h1 with ⟨-, rfl⟩ | ⟨-, rfl⟩
            · exact ⟨⟨rfl, rfl, rfl, rfl, rfl, rfl, rfl⟩, rfl, .inl rfl⟩
            · exact absurd hb hn1

/-- Everything an accepted `START_DEC` can do (R200, R281). -/
theorem decStart_cases {d t : DecState} (h : d.start = .next t) :
    (∃ u, SyncPassed { d with status := .busy, err := none } u ∧ t = u.init) ∨
    (SyncWrites d t ∧ t.status = .error ∧
      (t.err = some .tooSmall ∨ t.err = some .magic ∨ t.err = some .channels)) := by
  unfold DecState.start at h
  rcases thenBusy_eq_next h with ⟨u, hu, hbu, ht⟩ | ⟨hu, hnu⟩
  · rcases sync_cases rfl rfl hu with hp | ⟨hw, hs, -⟩
    · exact .inl ⟨u, hp, by simpa using ht.symm⟩
    · rw [hs] at hbu; cases hbu
  · rcases sync_cases rfl rfl hu with hp | ⟨hw, hs, he⟩
    · exact absurd hp.busy hnu
    · exact .inr ⟨⟨hw.inLen, hw.inMem, hw.outMem, hw.working⟩, hs, he⟩

/-! ### The encoder's move -/

/-- Everything one move of ENC can do (R160). -/
theorem encMove_cases {e t : EncState} (h : e.move = .next t) :
    (e.status ≠ .busy ∧ t = e) ∨
    (e.status = .busy ∧ ¬ encMore e ∧ t = e.finish) ∨
    (e.status = .busy ∧ encMore e ∧ ∃ px, fetchPixel e = some px ∧ t = { (e.pixelStep px) with pi := e.pi + 1 }) := by
  unfold EncState.move at h
  split at h
  · next hb =>
    split at h
    · next hm =>
      cases hf : fetchPixel e with
      | none => simp [hf] at h
      | some px =>
        simp only [hf] at h
        exact .inr (.inr ⟨hb, hm, px, rfl, by simpa using h.symm⟩)
    · next hm => exact .inr (.inl ⟨hb, hm, by simpa using h.symm⟩)
  · next hb => exact .inl ⟨hb, by simpa using h.symm⟩

/-- What a pixel step can be (R164). -/
theorem pixelStep_cases (px : Pixel) (e : EncState) :
    (px = e.prev ∧ e.run + 1 ≠ 62 ∧ e.pixelStep px = { e with run := e.run + 1 }) ∨
    (px = e.prev ∧ e.run + 1 = 62 ∧ e.pixelStep px = { (e.append [0xFD]) with run := 0 }) ∨
    (px ≠ e.prev ∧ 0 < e.run ∧
      e.pixelStep px = { ((e.append (encode (.run e.run) ++ encode (emission e px))).update px) with run := 0 }) ∨
    (px ≠ e.prev ∧ e.run = 0 ∧ e.pixelStep px = (e.append (encode (emission e px))).update px) := by
  unfold EncState.pixelStep
  by_cases hp : px = e.prev
  · rw [if_pos hp]
    unfold EncState.runExtend
    by_cases h62 : e.run + 1 = 62
    · rw [if_pos h62]; exact .inr (.inl ⟨hp, h62, rfl⟩)
    · rw [if_neg h62]; exact .inl ⟨hp, h62, rfl⟩
  · rw [if_neg hp]
    unfold EncState.runFlush
    by_cases h0 : 0 < e.run
    · rw [if_pos h0]
      refine .inr (.inr (.inl ⟨hp, h0, ?_⟩))
      rw [← EncState.append_append]
      rfl
    · rw [if_neg h0]; exact .inr (.inr (.inr ⟨hp, by omega, rfl⟩))

/-- Everything `emission` can answer, with the conditions of the decision order (R164, R167 to R172). -/
theorem emission_cases (e : EncState) (px : Pixel) :
    (cacheHit e px ∧ emission e px = .index (pixelHash px)) ∨
    (¬ cacheHit e px ∧ px.a ≠ e.prev.a ∧ emission e px = .rgba px.r px.g px.b px.a) ∨
    (¬ cacheHit e px ∧ px.a = e.prev.a ∧ ∃ dr dg db,
      dr = delta px.r e.prev.r ∧ dg = delta px.g e.prev.g ∧ db = delta px.b e.prev.b ∧
      ((diffFits dr dg db ∧ emission e px = .diff dr dg db) ∨
       (¬ diffFits dr dg db ∧ lumaFits dg (dr - dg) (db - dg) ∧ emission e px = .luma dg (dr - dg) (db - dg)) ∨
       (¬ diffFits dr dg db ∧ ¬ lumaFits dg (dr - dg) (db - dg) ∧ emission e px = .rgb px.r px.g px.b))) := by
  unfold emission
  by_cases hc : cacheHit e px
  · exact .inl ⟨hc, if_pos hc⟩
  · rw [if_neg hc]
    by_cases ha : px.a = e.prev.a
    · rw [if_pos ha]
      refine .inr (.inr ⟨hc, ha, _, _, _, rfl, rfl, rfl, ?_⟩)
      by_cases hd : diffFits (delta px.r e.prev.r) (delta px.g e.prev.g) (delta px.b e.prev.b)
      · exact .inl ⟨hd, if_pos hd⟩
      · simp only [if_neg hd]
        by_cases hl : lumaFits (delta px.g e.prev.g) (delta px.r e.prev.r - delta px.g e.prev.g)
            (delta px.b e.prev.b - delta px.g e.prev.g)
        · exact .inr (.inl ⟨hd, hl, if_pos hl⟩)
        · exact .inr (.inr ⟨hd, hl, if_neg hl⟩)
    · exact .inr (.inl ⟨hc, ha, if_neg ha⟩)

/-- A pixel step changes the working registers it names and `ENC_OUT`, nothing else (R164 to R173). -/
theorem pixelStep_frame (px : Pixel) (e : EncState) :
    e.pixelStep px = { e with
      prev := (e.pixelStep px).prev
      run := (e.pixelStep px).run
      wp := (e.pixelStep px).wp
      cache := (e.pixelStep px).cache
      outMem := (e.pixelStep px).outMem } := by
  rcases pixelStep_cases px e with ⟨-, -, h⟩ | ⟨-, -, h⟩ | ⟨-, -, h⟩ | ⟨-, -, h⟩ <;> rw [h] <;> rfl

/-- What the end of the pass can be (R174, R175). -/
theorem encFinish_eq (e : EncState) :
    e.finish = (let bs := (if 0 < e.run then encode (.run e.run) else []) ++ Config.trailer
      { (e.append bs) with run := 0, outLen := e.wp + bs.length, status := .done }) := by
  unfold EncState.finish EncState.runFlush EncState.trlWrite
  by_cases h0 : 0 < e.run
  · simp only [if_pos h0]
    rw [← EncState.append_append]
    rfl
  · have hr : e.run = 0 := by omega
    simp only [if_neg h0, List.nil_append]
    conv_rhs => rw [← hr]
    rfl

/-- Everything an accepted `START_ENC` can do (R160, R161). -/
theorem encStart_cases (e : EncState) :
    (e.inLen < e.channels.toNat * e.width.toNat * e.height.toNat ∧
      e.start = { e with status := .error, err := some .size }) ∨
    (e.channels.toNat * e.width.toNat * e.height.toNat ≤ e.inLen ∧ ¬ channelsOk e.channels ∧
      e.start = { e with status := .error, err := some .channels }) ∨
    (e.channels.toNat * e.width.toNat * e.height.toNat ≤ e.inLen ∧ channelsOk e.channels ∧
      e.start = ({ e with status := .busy, err := none } : EncState).init.hdrWrite) := by
  unfold EncState.start EncState.check
  by_cases h1 : e.inLen < e.channels.toNat * e.width.toNat * e.height.toNat
  · simp only [if_pos h1]; exact .inl ⟨h1, rfl⟩
  · by_cases h2 : channelsOk e.channels
    · simp only [if_neg h1, if_pos h2]; exact .inr (.inr ⟨by omega, h2, trivial⟩)
    · simp only [if_neg h1, if_neg h2]; exact .inr (.inl ⟨by omega, h2, rfl⟩)

/-! ### The host's move -/

/-- Everything a host command can do to the engines: an engine that is BUSY is left alone or reset; one that is not
may start or get new parameters or input (R21, R47, R280). -/
theorem hostExec_cases {c : HostCmd} {s t : State} (h : hostExec c s = .next t) :
    (t.enc = s.enc ∨ t.enc = EncState.reset ∨
      (s.enc.status ≠ .busy ∧ (t.enc = s.enc.start ∨
        ∃ w hh cn cs n m, t.enc = { s.enc with
          width := w, height := hh, channels := cn, colorspace := cs, inLen := n, inMem := m } ∧
          (s.enc.inMem.wf → Memory.wf m)))) ∧
    (t.dec = s.dec ∨ t.dec = DecState.reset ∨
      (s.dec.status ≠ .busy ∧ (s.dec.start = .next t.dec ∨
        ∃ n m, t.dec = { s.dec with inLen := n, inMem := m } ∧ (s.dec.inMem.wf → Memory.wf m)))) := by
  have hread : ∀ r w, hostRead r w s = .next t → t.enc = s.enc ∧ t.dec = s.dec := by
    intro r w hr
    cases r <;> simp only [hostRead] at hr
    · obtain rfl := by simpa using hr.symm
      exact ⟨rfl, rfl⟩
    · obtain rfl := by simpa using hr.symm
      exact ⟨rfl, rfl⟩
    · cases hr
  have hwe : ∀ e', hostWriteEnc e' s = .next t → s.enc.status ≠ .busy ∧ t = { s with enc := e' } := by
    intro e' hw
    unfold hostWriteEnc at hw
    split at hw
    · cases hw
    · next hb => exact ⟨hb, by simpa using hw.symm⟩
  have hwd : ∀ d', hostWriteDec d' s = .next t → s.dec.status ≠ .busy ∧ t = { s with dec := d' } := by
    intro d' hw
    unfold hostWriteDec at hw
    split at hw
    · cases hw
    · next hb => exact ⟨hb, by simpa using hw.symm⟩
  cases c with
  | writeEncWidth v =>
    obtain ⟨hb, rfl⟩ := hwe _ h
    exact ⟨.inr (.inr ⟨hb, .inr ⟨_, _, _, _, _, _, rfl, id⟩⟩), .inl rfl⟩
  | writeEncHeight v =>
    obtain ⟨hb, rfl⟩ := hwe _ h
    exact ⟨.inr (.inr ⟨hb, .inr ⟨_, _, _, _, _, _, rfl, id⟩⟩), .inl rfl⟩
  | writeEncChannels v =>
    obtain ⟨hb, rfl⟩ := hwe _ h
    exact ⟨.inr (.inr ⟨hb, .inr ⟨_, _, _, _, _, _, rfl, id⟩⟩), .inl rfl⟩
  | writeEncColorspace v =>
    obtain ⟨hb, rfl⟩ := hwe _ h
    exact ⟨.inr (.inr ⟨hb, .inr ⟨_, _, _, _, _, _, rfl, id⟩⟩), .inl rfl⟩
  | writeEncInLen n =>
    obtain ⟨hb, rfl⟩ := hwe _ h
    exact ⟨.inr (.inr ⟨hb, .inr ⟨_, _, _, _, _, _, rfl, id⟩⟩), .inl rfl⟩
  | writeEncIn a bs =>
    obtain ⟨hb, rfl⟩ := hwe _ h
    exact ⟨.inr (.inr ⟨hb, .inr ⟨_, _, _, _, _, _, rfl, Memory.wf_writeBytes⟩⟩), .inl rfl⟩
  | writeDecInLen n =>
    obtain ⟨hb, rfl⟩ := hwd _ h
    exact ⟨.inl rfl, .inr (.inr ⟨hb, .inr ⟨_, _, rfl, id⟩⟩)⟩
  | writeDecIn a bs =>
    obtain ⟨hb, rfl⟩ := hwd _ h
    exact ⟨.inl rfl, .inr (.inr ⟨hb, .inr ⟨_, _, rfl, Memory.wf_writeBytes⟩⟩)⟩
  | startEnc =>
    simp only [hostExec, startEnc] at h
    split at h
    · obtain rfl := by simpa using h.symm
      exact ⟨.inl rfl, .inl rfl⟩
    · next hb =>
      obtain rfl := by simpa using h.symm
      exact ⟨.inr (.inr ⟨hb, .inl rfl⟩), .inl rfl⟩
  | startDec =>
    simp only [hostExec, startDec] at h
    split at h
    · obtain rfl := by simpa using h.symm
      exact ⟨.inl rfl, .inl rfl⟩
    · next hb =>
      cases hs : s.dec.start with
      | fault r => simp [hs, mapOutcome] at h
      | refused r => simp [hs, mapOutcome] at h
      | next d =>
        simp only [hs, mapOutcome] at h
        obtain rfl := by simpa using h.symm
        exact ⟨.inl rfl, .inr (.inr ⟨hb, .inl rfl⟩)⟩
  | readReg r => exact ⟨.inl (hread _ _ h).1, .inl (hread _ _ h).2⟩
  | readMem sp a => exact ⟨.inl (hread _ _ h).1, .inl (hread _ _ h).2⟩
  | hardReset =>
    simp only [hostExec, hardReset] at h
    obtain rfl := by simpa using h.symm
    exact ⟨.inr (.inl rfl), .inr (.inl rfl)⟩

/-- A step of ENC. -/
theorem step_enc {s : State} (ha : nextAgent s = .enc) :
    step s = mapOutcome (fun e => { popTurn s with enc := e }) s.enc.move := by
  unfold step; rw [ha]; rfl

/-- A step of DEC. -/
theorem step_dec {s : State} (ha : nextAgent s = .dec) : step s = decMove (popTurn s) := by
  unfold step; rw [ha]; rfl

/-- A step of the host with a command waiting. -/
theorem step_host {s : State} {c : HostCmd} {cs : List HostCmd} (ha : nextAgent s = .host) (hh : s.host = c :: cs) :
    step s = hostExec c { popTurn s with host := cs } := by
  unfold step; rw [ha]; simp only [agentMove, hostMove, popTurn_host, hh]

/-- One step, by the agent that moves. -/
theorem step_cases {s t : State} (h : step s = .next t) :
    (nextAgent s = .enc ∧ ∃ e, s.enc.move = .next e ∧ t = { popTurn s with enc := e }) ∨
    (nextAgent s = .dec ∧ decMove (popTurn s) = .next t) ∨
    (nextAgent s = .host ∧ ((s.host = [] ∧ t = popTurn s) ∨
      ∃ c cs, s.host = c :: cs ∧ hostExec c { popTurn s with host := cs } = .next t)) := by
  unfold step at h
  cases ha : nextAgent s <;> simp only [ha, agentMove] at h
  · left
    refine ⟨rfl, ?_⟩
    simp only [encMove, popTurn_enc] at h
    cases hm : s.enc.move with
    | fault r => simp [hm, mapOutcome] at h
    | refused r => simp [hm, mapOutcome] at h
    | next e =>
      simp only [hm, mapOutcome] at h
      exact ⟨e, rfl, by simpa using h.symm⟩
  · exact .inr (.inl ⟨rfl, h⟩)
  · right; right
    refine ⟨rfl, ?_⟩
    unfold hostMove at h
    simp only [popTurn_host] at h
    cases hh : s.host with
    | nil => simp only [hh] at h; exact .inl ⟨rfl, by simpa using h.symm⟩
    | cons c cs => simp only [hh] at h; exact .inr ⟨c, cs, rfl, h⟩

end Sys2Proof.Machine
end

