-- ==== Sys2Proof/Laws/Whole.lean ====
section
/-! SUPPORT. The bytes of the one-function form R177 and those of the machine's encoder are the same. -/

namespace Sys2Proof.Machine

/-- The flush of the open run (R166, R174) in the words of R177. -/
theorem runBytes_eq (run : Nat) : (if 0 < run then encode (.run run) else []) = Whole.runBytes run := by
  simp [Whole.runBytes, encode]

/-- The bytes emitted for a pixel (R167 to R172) in the words of R177. -/
theorem encode_emission (e : EncState) (px : Pixel) :
    encode (emission e px) = Whole.emitBytes px e.prev e.cache := by
  unfold Whole.emitBytes
  rcases emission_cases e px with ⟨h, em⟩ | ⟨h, ha, em⟩ |
    ⟨h, ha, dr, dg, db, hr, hg, hb, ⟨hd, em⟩ | ⟨hd, hl, em⟩ | ⟨hd, hl, em⟩⟩ <;> rw [em]
  · unfold cacheHit at h; simp only [if_pos h]; simp [encode]
  · unfold cacheHit at h; simp only [if_neg h, if_neg ha]; rfl
  · unfold cacheHit at h; unfold delta at *; simp only [if_neg h, if_pos ha, ← hr, ← hg, ← hb]
    rw [if_pos hd]; rfl
  · unfold cacheHit at h; unfold delta at *; simp only [if_neg h, if_pos ha, ← hr, ← hg, ← hb]
    rw [if_neg hd, if_pos hl]; rfl
  · unfold cacheHit at h; unfold delta at *; simp only [if_neg h, if_pos ha, ← hr, ← hg, ← hb]
    rw [if_neg hd, if_neg hl]; rfl

end Sys2Proof.Machine
end

