-- ==== Sys2Proof/Tests/Slice0.lean ====
section
/-! SUPPORT. Tests of the model on small states, expected values from 95_test_vectors.md (the vector is named), and for
every statement with hypotheses a witness: concrete data that meets all of them together. -/

namespace Sys2Proof.Tests

open Sys2Proof Sys2Proof.Machine

/-! ### WellFormed refuses what R105 refuses -/

theorem test_wf_diff_red_low : (Instr.diff (-3) 0 0).wellFormed = false := by decide
theorem test_wf_diff_red_high : (Instr.diff 2 0 0).wellFormed = false := by decide
theorem test_wf_diff_green : (Instr.diff 0 (-3) 0).wellFormed = false ∧ (Instr.diff 0 2 0).wellFormed = false := by
  decide
theorem test_wf_diff_blue : (Instr.diff 0 0 (-3)).wellFormed = false ∧ (Instr.diff 0 0 2).wellFormed = false := by
  decide
theorem test_wf_luma_green : (Instr.luma (-33) 0 0).wellFormed = false ∧ (Instr.luma 32 0 0).wellFormed = false := by
  decide
theorem test_wf_luma_red : (Instr.luma 0 (-9) 0).wellFormed = false ∧ (Instr.luma 0 8 0).wellFormed = false := by
  decide
theorem test_wf_luma_blue : (Instr.luma 0 0 (-9)).wellFormed = false ∧ (Instr.luma 0 0 8).wellFormed = false := by
  decide
theorem test_wf_run_zero : (Instr.run 0).wellFormed = false := by decide
theorem test_wf_run_high : (Instr.run 63).wellFormed = false := by decide

/-! ### Decoding words written out from R99 to R104 -/

/-- R103, vector DV1. -/
theorem test_decode_rgb : decode [0b11111110, 0x0A, 0x14, 0x1E, 0x77] = .ok (.rgb 10 20 30, [0x77]) := by rfl
/-- R104, vector DV2. -/
theorem test_decode_rgba : decode [0b11111111, 0x0A, 0x14, 0x1E, 0x28] = .ok (.rgba 10 20 30 40, []) := by rfl
/-- R99, program P1. -/
theorem test_decode_index : decode [0b00110001] = .ok (.index 49, []) := by rfl
/-- R100, vector DV4. -/
theorem test_decode_diff : decode [0b01111001] = .ok (.diff 1 0 (-1), []) := by rfl
/-- R101, vector DV5. -/
theorem test_decode_luma : decode [0b10010110, 0b11011011] = .ok (.luma (-10) 5 3, []) := by rfl
/-- R101, vector E17: all three fields at a bound. -/
theorem test_decode_luma_bounds : decode [0b10000000, 0b00001111] = .ok (.luma (-32) (-8) 7, []) := by rfl
/-- R102, vector DV27. -/
theorem test_decode_run : decode [0b11111101] = .ok (.run 62, []) := by rfl
/-- R203, vector DV16. -/
theorem test_decode_truncated : decode [0xFE, 1, 2] = .error (.truncated .rgb) := by rfl

/-- R110, vectors E6, E18, E24, E9. -/
theorem test_encode : encode (.rgba 10 20 30 40) = [0xFF, 0x0A, 0x14, 0x1E, 0x28] ∧
    encode (.luma 31 7 (-8)) = [0xBF, 0xF0] ∧ encode (.diff 1 1 1) = [0x7F] ∧ encode (.run 1) = [0xC0] := by decide

/-- The opcode table's numbering: the first byte is bits 7..0. -/
theorem test_table_word : decodeTableWord 32 0x1E140AFE = some (.rgb 10 20 30) ∧
    decodeTableWord 8 0xFE = some (.rgb 0 0 0) ∧ decodeTableWord 16 0xDB96 = some (.luma (-10) 5 3) := by decide

/-! ### One step from reset -/

/-- The state after placing a table word and making one step. -/
def ran (nbits w : Nat) : Option State := nextOf (step (State.reset.withFetchWord nbits w))

/-- The previous pixel, the read pointer, the pixel count and the first four output bytes after `ran`. -/
def ranView (nbits w : Nat) : Option (Pixel × Nat × Nat × Option (List Byte)) :=
  (ran nbits w).map fun s => (s.dec.prev, s.dec.rp, s.dec.po, s.dec.outMem.readBytes 0 4)

/-- DV1. -/
theorem test_step_rgb :
    ranView 32 0x1E140AFE = some (⟨10, 20, 30, 255⟩, 18, 1, some [0x0A, 0x14, 0x1E, 0xFF]) := by decide
/-- DV2. -/
theorem test_step_rgba :
    ranView 40 0x281E140AFF = some (⟨10, 20, 30, 40⟩, 19, 1, some [0x0A, 0x14, 0x1E, 0x28]) := by decide
/-- DV3. -/
theorem test_step_index : ranView 8 0x05 = some (⟨0, 0, 0, 0⟩, 15, 1, some [0, 0, 0, 0]) := by decide
/-- DV4: blue wraps. -/
theorem test_step_diff : ranView 8 0x79 = some (⟨1, 0, 255, 255⟩, 15, 1, some [0x01, 0x00, 0xFF, 0xFF]) := by decide
/-- DV5. -/
theorem test_step_luma :
    ranView 16 0xDB96 = some (⟨251, 246, 249, 255⟩, 16, 1, some [0xFB, 0xF6, 0xF9, 0xFF]) := by decide
/-- DV6: three pixels, slot 53 stored. -/
theorem test_step_run : ranView 8 0xC2 = some (⟨0, 0, 0, 255⟩, 15, 3, some [0, 0, 0, 0xFF]) ∧
    (ran 8 0xC2).map (fun s => cacheGet s.dec.cache 53) = some ⟨0, 0, 0, 255⟩ := by decide

/-! ### Small states -/

/-- A decoder in its pixel loop over a payload, `w` pixels by 1, `c` channels. -/
def passState (c : Byte) (w : Word32) (payload : List Byte) : State :=
  { State.reset with
    dec := { DecState.reset with
      status := .busy, channels := c, width := w, height := 1, outLen := c.toNat * w.toNat, rp := 14,
      pend := 14 + payload.length, inLen := 14 + payload.length,
      inMem := Memory.writeBytes [] 14 payload } }

/-- An encoder in its pixel loop over `pix`, `w` pixels by 1, four channels, with an open run. -/
def encState (run : Nat) (w : Word32) (pix : List Byte) : State :=
  { State.reset with
    enc := { EncState.reset with
      status := .busy, channels := 4, width := w, height := 1, inLen := pix.length, run := run, wp := 14,
      inMem := Memory.writeBytes [] 0 pix, outMem := Memory.writeBytes [] 0 (headerBytes w 1 4 0) } }

/-- A block that waits for the host's `START_ENC`. -/
def startEncState (c : Byte) (w : Word32) (pix : List Byte) : State :=
  { State.reset with
    host := [.startEnc]
    enc := { EncState.reset with
      channels := c, width := w, height := 1, inLen := pix.length, inMem := Memory.writeBytes [] 0 pix } }

/-- A block that waits for the host's `START_DEC`. -/
def startDecState (bs : List Byte) : State :=
  { State.reset with
    host := [.startDec]
    dec := { DecState.reset with inLen := bs.length, inMem := Memory.writeBytes [] 0 bs } }

/-- Vector DV28 and program P1's framing: a header with the given channels, no pixels, no payload, the trailer. -/
def stream0 (c : Byte) : List Byte :=
  [0x71, 0x6F, 0x69, 0x66, 0, 0, 0, 0, 0, 0, 0, 0, c, 0, 0, 0, 0, 0, 0, 0, 0, 1]

/-- One pixel, `RUN 1`, the trailer: the output of vector E1 and the input of the decoder that gives it back. -/
def stream1 : List Byte :=
  [0x71, 0x6F, 0x69, 0x66, 0, 0, 0, 1, 0, 0, 0, 1, 4, 0, 0xC0, 0, 0, 0, 0, 0, 0, 0, 1]

/-- The bytes the encoder appended in one step, after the header. -/
def encView (s : State) : Option (Nat × Nat × Option (List Byte)) :=
  (nextOf (step s)).map fun t => (t.enc.run, t.enc.wp, t.enc.outMem.readBytes 14 (t.enc.wp - 14))

/-- E2. -/
theorem test_enc_diff : encView (encState 0 1 [1, 0, 255, 255]) = some (0, 15, some [0x79]) := by decide
/-- E26. -/
theorem test_enc_luma : encView (encState 0 1 [253, 0, 0, 255]) = some (0, 16, some [0xA0, 0x58]) := by decide
/-- E19. -/
theorem test_enc_rgb : encView (encState 0 1 [32, 32, 32, 255]) = some (0, 18, some [0xFE, 32, 32, 32]) := by decide
/-- E33. -/
theorem test_enc_rgba : encView (encState 0 1 [0, 0, 0, 254]) = some (0, 19, some [0xFF, 0, 0, 0, 254]) := by decide
/-- E34. -/
theorem test_enc_index : encView (encState 0 1 [0, 0, 0, 0]) = some (0, 15, some [0x00]) := by decide
/-- E62: the 62nd equal pixel. -/
theorem test_enc_run_full : encView (encState 61 62 [0, 0, 0, 255]) = some (0, 15, some [0xFD]) := by decide
/-- P1, step 2: the flush comes before the instruction. -/
theorem test_enc_flush : encView (encState 2 1 [1, 0, 255, 255]) = some (0, 16, some [0xC1, 0x79]) := by decide

/-- E30 (size before channels), E29, E53 (the product does not wrap). -/
theorem test_enc_errors :
    (startEncState 5 1 [0, 0, 0]).enc.start.err = some .size ∧
    (startEncState 2 1 [0, 0, 0, 0]).enc.start.err = some .channels ∧
    ({ EncState.reset with width := 65536, height := 65536 } : EncState).start.err = some .size := by decide

/-- The error and the end of payload after `START_DEC`. -/
def decView (bs : List Byte) : Option (Status × Option DecCause × Bool × Nat) :=
  (nextOf (step (startDecState bs))).map fun t => (t.dec.status, t.dec.err, t.dec.found, t.dec.pend)

/-- DV28, DV29. -/
theorem test_sync_trailer : decView (stream0 4) = some (.busy, none, true, 14) ∧
    decView ((stream0 4).take 14 ++ [0, 0, 0, 0, 0, 0, 0, 0]) = some (.busy, none, false, 22) := by decide
/-- DV24: magic before channels. -/
theorem test_sync_magic :
    (decView (List.replicate 22 0)).map (fun v => v.2.1) = some (some .magic) := by decide
/-- DV12. -/
theorem test_sync_channels : (decView (stream0 5)).map (fun v => v.2.1) = some (some .channels) := by decide
/-- DV37: windows move by one byte. -/
theorem test_sync_window :
    decView ((stream1.take 14) ++ [0xC0, 0, 0, 0, 0, 0, 0, 0, 0, 1]) = some (.busy, none, true, 16) := by decide

/-- R284: a host write to a BUSY engine is refused by name. -/
theorem test_host_write_busy :
    hostExec (.writeDecInLen 3) (passState 4 1 [0xC0]) = .refused .hostWriteWhileBusy := by rfl
/-- U6, R68: a payload byte nobody placed. -/
theorem test_unplaced :
    step { (passState 4 1 [0xC0]) with dec := { (passState 4 1 [0xC0]).dec with inMem := [] } } =
      .fault .inputNotPlaced := by rfl

/-! ### Witnesses: concrete data that meets the hypotheses of each statement -/

theorem wit_HardResetAbandonsOperations :
    ∃ s cs, nextAgent s = .host ∧ s.host = .hardReset :: cs :=
  ⟨{ passState 4 1 [0xC0] with host := [.hardReset], turns := [.host] }, [], by decide⟩

theorem wit_FirstByteSelectsClassAndLength :
    ((0x00 : Byte) &&& 0xC0 = 0x00 ∧ (0x3F : Byte) &&& 0xC0 = 0x00) ∧
    ((0x40 : Byte) &&& 0xC0 = 0x40 ∧ (0x7F : Byte) &&& 0xC0 = 0x40) ∧
    ((0x80 : Byte) &&& 0xC0 = 0x80 ∧ (0xBF : Byte) &&& 0xC0 = 0x80) ∧
    ((0xC0 : Byte) &&& 0xC0 = 0xC0 ∧ (0xFD : Byte) &&& 0xC0 = 0xC0 ∧ (0xFD : Byte) ≠ 0xFE ∧ (0xFD : Byte) ≠ 0xFF) := by
  decide

theorem wit_DecodeInvertsEncode :
    (Instr.diff (-2) 1 (-2)).WellFormed ∧ (Instr.luma (-32) 7 (-8)).WellFormed ∧ (Instr.luma 31 (-8) 7).WellFormed ∧
    (Instr.run 1).WellFormed ∧ (Instr.run 62).WellFormed ∧ (Instr.index 63).WellFormed ∧
    (Instr.rgb 0 255 0).WellFormed ∧ (Instr.rgba 0 0 0 255).WellFormed := by decide

theorem wit_EncodeInvertsDecode : ∃ bs i rest, decode bs = .ok (i, rest) :=
  ⟨[0xBF, 0xF0, 1], .luma 31 7 (-8), [1], rfl⟩

theorem wit_DecodeFailsOnlyOnMissingBytes :
    ([] : List Byte).length + 1 < (classify 0xBF).length ∧ (classify 0xBF).length ≤ ([0] : List Byte).length + 1 := by
  decide

/-- For the statements of the five instructions that emit one pixel: three and four channels. -/
theorem wit_channelsOk :
    channelsOk (passState 3 1 [0xC0]).dec.channels ∧ channelsOk (passState 4 1 [0xC0]).dec.channels := by decide

theorem wit_RunRepeatsPreviousPixel :
    (channelsOk (passState 3 2 [0xC5]).dec.channels ∧ (Instr.run 6).WellFormed ∧
      (passState 3 2 [0xC5]).dec.po < (passState 3 2 [0xC5]).dec.width.toNat * (passState 3 2 [0xC5]).dec.height.toNat) ∧
    (channelsOk (passState 4 62 [0xFD]).dec.channels ∧ (Instr.run 62).WellFormed ∧
      (passState 4 62 [0xFD]).dec.po <
        (passState 4 62 [0xFD]).dec.width.toNat * (passState 4 62 [0xFD]).dec.height.toNat) := by decide

theorem wit_StepRunsDecodedInstruction : ∃ (s : State) (bs rest : List Byte) (i : Instr),
    nextAgent s = .dec ∧ s.dec.status = .busy ∧ s.dec.rp < s.dec.pend ∧ s.dec.po < s.dec.quota ∧
    fetchInstr s.dec = some bs ∧ decode bs = .ok (i, rest) :=
  ⟨passState 4 1 [0x96, 0xDB], [0x96, 0xDB], [], .luma (-10) 5 3, by decide, by decide, by decide, by decide,
    by decide, rfl⟩

theorem wit_StepRunsInstructionAtReadPointer : ∃ (s : State) (i : Instr),
    nextAgent s = .dec ∧ s.dec.status = .busy ∧ s.dec.po < s.dec.quota ∧ i.WellFormed ∧
    s.dec.rp + (encode i).length ≤ s.dec.pend ∧
    s.dec.inMem.readBytes s.dec.rp (encode i).length = some (encode i) :=
  ⟨passState 4 1 [0x96, 0xDB], .luma (-10) 5 3, by decide⟩

theorem wit_FetchWordRunsNext : decodeTableWord 16 0xDB96 = some (.luma (-10) 5 3) := by decide

theorem wit_TruncatedInstructionIsSkipped : ∃ (s : State) (b0 : Byte),
    nextAgent s = .dec ∧ s.dec.status = .busy ∧ s.dec.rp < s.dec.pend ∧ s.dec.po < s.dec.quota ∧
    s.dec.inMem.read s.dec.rp = some b0 ∧ s.dec.pend < s.dec.rp + (classify b0).length ∧
    (∀ a, s.dec.rp ≤ a → a < s.dec.pend → (s.dec.inMem.read a).isSome) := by
  refine ⟨passState 4 1 [0xFE, 1, 2], 0xFE, by decide, by decide, by decide, by decide, by decide, by decide, ?_⟩
  intro a h1 h2
  have h1 : 14 ≤ a := h1
  have h2 : a < 17 := h2
  obtain rfl | rfl | rfl : a = 14 ∨ a = 15 ∨ a = 16 := by omega
  all_goals decide

theorem wit_ReadPointerAdvancesByLength :
    (∃ (s t : State) (b0 : Byte), nextAgent s = .dec ∧ s.dec.status = .busy ∧ s.dec.rp < s.dec.pend ∧
      s.dec.po < s.dec.quota ∧ step s = .next t ∧ s.dec.inMem.read s.dec.rp = some b0 ∧
      s.dec.rp + (classify b0).length ≤ s.dec.pend) ∧
    (∃ (s t : State) (b0 : Byte), nextAgent s = .dec ∧ s.dec.status = .busy ∧ s.dec.rp < s.dec.pend ∧
      s.dec.po < s.dec.quota ∧ step s = .next t ∧ s.dec.inMem.read s.dec.rp = some b0 ∧
      s.dec.pend < s.dec.rp + (classify b0).length) :=
  ⟨⟨passState 4 1 [0x79], _, 0x79, by decide, by decide, by decide, by decide, rfl, by decide, by decide⟩,
    ⟨passState 4 1 [0xFE, 1, 2], _, 0xFE, by decide, by decide, by decide, by decide, rfl, by decide, by decide⟩⟩

theorem wit_PassEndsByPixelCount :
    (∃ s : State, nextAgent s = .dec ∧ s.dec.status = .busy ∧
      ¬ (s.dec.rp < s.dec.pend ∧ s.dec.po < s.dec.width.toNat * s.dec.height.toNat) ∧
      s.dec.po < s.dec.width.toNat * s.dec.height.toNat) ∧
    (∃ s : State, nextAgent s = .dec ∧ s.dec.status = .busy ∧
      ¬ (s.dec.rp < s.dec.pend ∧ s.dec.po < s.dec.width.toNat * s.dec.height.toNat) ∧
      s.dec.width.toNat * s.dec.height.toNat ≤ s.dec.po) :=
  ⟨⟨passState 4 1 [], by decide⟩, ⟨passState 4 0 [0xFE], by decide⟩⟩

theorem wit_ShortStreamIsRejected :
    (∃ (s : State) (cs : List HostCmd),
      nextAgent s = .host ∧ s.host = .startDec :: cs ∧ s.dec.status ≠ .busy ∧ s.dec.inLen < 22) ∧
    22 ≤ (startDecState (stream0 4)).dec.inLen :=
  ⟨⟨startDecState ((stream0 4).take 21), [], by decide⟩, by decide⟩

/-- One stream for each branch of the statement: too short, bad magic, bad channels, accepted. -/
theorem wit_SynchroniserReportsFirstViolation :
    ∀ bs ∈ [(stream0 4).take 21, List.replicate 22 (0 : Byte), stream0 5, stream0 3],
      nextAgent (startDecState bs) = .host ∧ (startDecState bs).host = [.startDec] ∧
      (startDecState bs).dec.status ≠ .busy ∧
      (startDecState bs).dec.inMem.readBytes 0 (startDecState bs).dec.inLen = some bs := by decide

theorem wit_HeaderIsParsedBigEndian :
    (startDecState stream1).dec.inMem.readBytes 4 10 = some [0, 0, 0, 1, 0, 0, 0, 1, 4, 0] := by decide

theorem wit_TrailerScanTakesFirstMatch :
    (∃ d d' : DecState, d.inMem.Placed d.inLen ∧ 22 ≤ d.inLen ∧ d.trlScan = .next d' ∧ d'.found = true) ∧
    (∃ d d' : DecState, d.inMem.Placed d.inLen ∧ 22 ≤ d.inLen ∧ d.trlScan = .next d' ∧ d'.found = false) := by
  refine ⟨⟨(startDecState (stream0 4)).dec, _, ?_, by decide, rfl, by decide⟩,
    ⟨(startDecState (List.replicate 22 0)).dec, _, ?_, by decide, rfl, by decide⟩⟩ <;>
  exact show ∀ a < 22, _ by decide

theorem wit_TrailerScanCompletes : ∃ d : DecState, d.inMem.Placed d.inLen :=
  ⟨(startDecState (stream0 4)).dec, show ∀ a < 22, _ by decide⟩

theorem wit_SynchroniserLeavesPassReady : ∃ (s t : State) (cs : List HostCmd),
    nextAgent s = .host ∧ s.host = .startDec :: cs ∧ s.dec.status ≠ .busy ∧ step s = .next t ∧ t.dec.status = .busy :=
  ⟨startDecState (stream0 3), _, [], by decide, by decide, by decide, rfl, by decide⟩

theorem wit_TrailerErrorIsNeverRaised : ∃ s t : State, s.dec.err ≠ some .trailer ∧ step s = .next t :=
  ⟨startDecState (stream0 4), _, by decide, rfl⟩

/-- One start for each branch: too little input, bad channels, accepted with three and with four channels. -/
theorem wit_StartEncChecksThenWritesHeader :
    ∀ s ∈ [startEncState 5 1 [0, 0, 0], startEncState 5 1 [0, 0, 0, 0, 0], startEncState 3 1 [0, 0, 0],
      startEncState 4 1 [0, 0, 0, 0]],
      nextAgent s = .host ∧ s.host = [.startEnc] ∧ s.enc.status ≠ .busy := by decide

theorem wit_PixelFetchDefaultsAlpha :
    ((encState 0 1 [1, 2, 3, 4]).enc.channels = 4 ∧
      (encState 0 1 [1, 2, 3, 4]).enc.inMem.readBytes ((encState 0 1 [1, 2, 3, 4]).enc.pi * 4) 4 = some [1, 2, 3, 4]) ∧
    ((startEncState 3 1 [1, 2, 3]).enc.channels = 3 ∧
      (startEncState 3 1 [1, 2, 3]).enc.inMem.readBytes ((startEncState 3 1 [1, 2, 3]).enc.pi * 3) 3 =
        some [1, 2, 3]) := by decide

/-- With the run at 0 and at 61, for the two clauses. -/
theorem wit_EqualPixelExtendsRun :
    ∀ s ∈ [encState 0 1 [0, 0, 0, 255], encState 61 62 [0, 0, 0, 255]],
      nextAgent s = .enc ∧ s.enc.status = .busy ∧ s.enc.pi < s.enc.quota ∧
      fetchPixel s.enc = some s.enc.prev := by decide

theorem wit_DifferentPixelEmitsInstruction : ∃ (s : State) (px : Pixel),
    nextAgent s = .enc ∧ s.enc.status = .busy ∧ s.enc.pi < s.enc.quota ∧ fetchPixel s.enc = some px ∧
    px ≠ s.enc.prev :=
  ⟨encState 2 1 [1, 0, 255, 255], ⟨1, 0, 255, 255⟩, by decide⟩

theorem wit_EncoderFinishFlushesAndTerminates : ∃ s : State,
    nextAgent s = .enc ∧ s.enc.status = .busy ∧ s.enc.quota ≤ s.enc.pi :=
  ⟨encState 5 0 [], by decide⟩

/-- Pixels that make the encoder emit each form the clauses of `EmissionIsCanonical` name. -/
theorem wit_EmissionIsCanonical :
    emission (encState 0 1 []).enc ⟨0, 0, 0, 0⟩ = .index 0 ∧
    emission (encState 0 1 []).enc ⟨1, 0, 255, 255⟩ = .diff 1 0 (-1) ∧
    emission (encState 0 1 []).enc ⟨2, 0, 0, 255⟩ = .luma 0 2 0 ∧
    emission (encState 0 1 []).enc ⟨10, 20, 30, 40⟩ = .rgba 10 20 30 40 ∧
    emission (encState 0 1 []).enc ⟨32, 32, 32, 255⟩ = .rgb 32 32 32 := by decide

theorem wit_NoIndexRepeatsItsSlot : ∃ (e : EncState) (px px' : Pixel) (i : Slot),
    px ≠ e.prev ∧ emission e px = .index i ∧ px' ≠ (e.pixelStep px).prev :=
  ⟨(encState 0 2 []).enc, ⟨0, 0, 0, 0⟩, ⟨128, 0, 0, 0⟩, 0, by decide⟩

theorem wit_EmissionReconstructsPixel : ∃ (e : EncState) (px : Pixel) (s : State),
    px ≠ e.prev ∧ s.dec.prev = e.prev ∧ cacheGet s.dec.cache (pixelHash px) = cacheGet e.cache (pixelHash px) :=
  ⟨(encState 0 1 []).enc, ⟨1, 0, 255, 255⟩, passState 4 1 [0x79], by decide⟩

theorem wit_BusyEngineIgnoresStart :
    (∃ (s : State) (cs : List HostCmd), nextAgent s = .host ∧ s.enc.status = .busy ∧ s.host = .startEnc :: cs) ∧
    (∃ (s : State) (cs : List HostCmd), nextAgent s = .host ∧ s.dec.status = .busy ∧ s.host = .startDec :: cs) :=
  ⟨⟨{ encState 0 1 [] with host := [.startEnc], turns := [.host] }, [], by decide⟩,
    ⟨{ passState 4 1 [] with host := [.startDec], turns := [.host] }, [], by decide⟩⟩

theorem wit_HostWritesNeedEngineNotBusy :
    (State.reset.enc.status ≠ .busy ∧ State.reset.dec.status ≠ .busy) ∧
    ((encState 0 1 []).enc.status = .busy ∧ (passState 4 1 []).dec.status = .busy) := by decide

theorem wit_HostReadsResultsWhenDone :
    (∃ (s : State) (b : Byte), s.enc.status = .done ∧ 0 < s.enc.outLen ∧ s.enc.outMem.read 0 = some b) ∧
    (∃ (s : State) (b : Byte), s.dec.status = .done ∧ 0 < s.dec.outLen ∧ s.dec.outMem.read 0 = some b) :=
  ⟨⟨{ State.reset with enc := { EncState.reset with status := .done, outLen := 1, outMem := [(0, 0x71)] } }, 0x71,
      by decide⟩,
    ⟨{ State.reset with dec := { DecState.reset with status := .done, outLen := 1, outMem := [(0, 7)] } }, 7,
      by decide⟩⟩

/-- A byte of each input space to read, with both engines BUSY. -/
theorem wit_HostReadsParametersAlways :
    (encState 0 1 [7, 0, 0, 0]).enc.status = .busy ∧ (encState 0 1 [7, 0, 0, 0]).enc.inMem.read 0 = some 7 ∧
    (passState 4 1 [0x79]).dec.status = .busy ∧ (passState 4 1 [0x79]).dec.inMem.read 14 = some 0x79 := by decide

theorem wit_BusyEngineRefusesResultReads :
    (encState 0 1 []).enc.status = .busy ∧ (passState 4 1 []).dec.status = .busy := by decide

/-- The second state reads an unspecified register: a free value. -/
theorem wit_HostReadFitsRegisterWidth :
    (∃ s t : State, regWidth .encWidth = some 32 ∧ hostExec (.readReg .encWidth) s = .next t) ∧
    (∃ s t : State, regWidth .decWidth = some 32 ∧ s.dec.status = .error ∧
      hostExec (.readReg .decWidth) s = .next t) :=
  ⟨⟨State.reset, _, rfl, rfl⟩,
    ⟨{ State.reset with dec := { DecState.reset with status := .error, err := some .magic } }, _, rfl, rfl, rfl⟩⟩

/-- A fresh encoder and one with another history; the same for the decoder. -/
theorem wit_StartForgetsEarlierOperations :
    (let e := (startEncState 4 1 [0, 0, 0, 0]).enc
     let e' := { e with status := .error, err := some .size, run := 7, pi := 3, outMem := [(2, 9)] }
     e.width = e'.width ∧ e.height = e'.height ∧ e.channels = e'.channels ∧ e.colorspace = e'.colorspace ∧
      e.inLen = e'.inLen ∧ e.inMem = e'.inMem ∧ e.start.status = .busy) ∧
    (let d := (startDecState (stream0 4)).dec
     let d' := { d with status := .error, err := some .magic, po := 7, outMem := [(2, 9)] }
     d.inLen = d'.inLen ∧ d.inMem = d'.inMem ∧
      (nextOf d.start).map (fun t => t.status) = some .busy) := by decide

/-- ENC at a pixel, DEC at an instruction, in one block. -/
theorem wit_EngineMovesCommute : ∃ s t u : State,
    agentMove .enc s = .next t ∧ agentMove .dec t = .next u :=
  ⟨{ passState 4 1 [0x79] with enc := (encState 0 1 [1, 0, 255, 255]).enc }, _, _, rfl, rfl⟩

theorem wit_EnginesWriteOnlyTheirOwn :
    (∃ s t : State, step s = .next t ∧ nextAgent s = .enc ∧ s.enc.status = .busy) ∧
    (∃ s t : State, step s = .next t ∧ nextAgent s = .dec ∧ s.dec.status = .busy) :=
  ⟨⟨encState 0 1 [1, 0, 255, 255], _, rfl, by decide⟩, ⟨passState 4 1 [0x79], _, rfl, by decide⟩⟩

theorem wit_EnginesStopOnlyOnUnplacedInput :
    (nextAgent (encState 0 1 []) = .enc ∧ channelsOk (encState 0 1 []).enc.channels) ∧
    nextAgent (passState 4 1 [0x79]) = .dec := by decide

/-- An encoder in its pixel loop meets the encoder's invariant. -/
theorem encState_inv : (encState 0 1 [1, 0, 255, 255]).enc.Inv where
  run_le := by decide
  err_iff := by decide
  checked := by decide
  pi_le := by decide
  wp_bound := by decide
  opaque_prev := by decide
  opaque_cache := by decide
  prev_cached := by decide
  written := fun _ => show ∀ a < 14, _ by decide
  done_len := by decide

/-- A decoder in its pixel loop meets the decoder's invariant. -/
theorem passState_inv : (passState 3 1 [0x79]).dec.Inv where
  err_iff := by decide
  err_ne_trailer := by decide
  channels_ok := by decide
  rp_range := by decide
  po_le := by decide
  done_po := by decide
  out_len := by decide
  written := fun _ => show ∀ a < 0, _ by decide

theorem wit_StepKeepsMemoryCanonical : ∃ s t : State, s.MemOk ∧ step s = .next t :=
  ⟨encState 0 1 [1, 0, 255, 255], _, by unfold State.MemOk; decide, rfl⟩

theorem wit_StepKeepsEncoderInvariant : ∃ s t : State, s.enc.Inv ∧ step s = .next t :=
  ⟨encState 0 1 [1, 0, 255, 255], _, encState_inv, rfl⟩

theorem wit_StepKeepsDecoderInvariant : ∃ s t : State, s.dec.Inv ∧ step s = .next t :=
  ⟨passState 3 1 [0x79], _, passState_inv, rfl⟩

theorem wit_EncoderRunMatchesEncodeFunction :
    let s := startEncState 4 1 [0, 0, 0, 255]
    s.host = [.startEnc] ∧ s.turns = [] ∧ s.enc.status ≠ .busy ∧ s.dec.status ≠ .busy ∧
    s.enc.inMem.readBytes 0 s.enc.inLen = some [0, 0, 0, 255] := by decide

theorem wit_DecoderRunMatchesDecodeFunction :
    let s := startDecState stream1
    s.host = [.startDec] ∧ s.turns = [] ∧ s.enc.status ≠ .busy ∧ s.dec.status ≠ .busy ∧
    s.dec.inMem.readBytes 0 s.dec.inLen = some stream1 := by decide

/-- For the three statements about `Whole.encode`: vector E1. -/
theorem wit_wholeEncode : Whole.encode [0, 0, 0, 255] 1 1 4 0 = .ok stream1 := by rfl

/-- E1's stream decodes back. -/
theorem test_whole_decode : Whole.decode stream1 = .ok ⟨[0, 0, 0, 255], 1, 1, 4, 0⟩ := by rfl

end Sys2Proof.Tests
end

section
/-! The cache hash (R9): the sum before reduction, its bound, and the reductions that give the same slot. -/

namespace Sys2Proof.Machine

/-- The sum of R9 before its reduction. -/
def hashSum (p : Pixel) : Nat :=
  p.r.toNat * 3 + p.g.toNat * 5 + p.b.toNat * 7 + p.a.toNat * 11

theorem pixelHash_val (p : Pixel) : (pixelHash p).val = hashSum p % 64 := rfl

/-- `255 * (3 + 5 + 7 + 11)`: the sum is greatest at the opaque white pixel. -/
theorem hashSum_le (p : Pixel) : hashSum p ≤ 6630 := by
  have hr := p.r.isLt
  have hg := p.g.isLt
  have hb := p.b.isLt
  have ha := p.a.isLt
  unfold hashSum
  omega

section
variable {d : Nat} (hd : 64 ∣ d)
include hd

/-- Reducing the sum first is harmless for every modulus that 64 divides. -/
theorem pixelHash_val_of_sum_mod (p : Pixel) : (pixelHash p).val = hashSum p % d % 64 :=
  (Nat.mod_mod_of_dvd (hashSum p) hd).symm

/-- Reducing each product first is harmless too: each is congruent to its remainder modulo `d`, hence modulo 64, and
congruences add. -/
theorem pixelHash_val_of_products_mod (p : Pixel) :
    (pixelHash p).val =
      (p.r.toNat * 3 % d + p.g.toNat * 5 % d + p.b.toNat * 7 % d + p.a.toNat * 11 % d) % 64 := by
  have product (n : Nat) : n ≡ n % d [MOD 64] := (Nat.mod_modEq n d).symm.of_dvd hd
  have sum := (((product (p.r.toNat * 3)).add (product (p.g.toNat * 5))).add
    (product (p.b.toNat * 7))).add (product (p.a.toNat * 11))
  exact sum

end

/-- Settles O4: 64 divides 256 and itself, so both reductions are instances of the two lemmas on a modulus that 64
divides. -/
theorem hashIsWeightedSumModulo64 : Obligations.HashIsWeightedSumModulo64 := by
  have h256 : 64 ∣ 256 := by decide
  refine ⟨fun p => ⟨pixelHash_val p, hashSum_le p, ?_, ?_, ?_⟩, ?_⟩
  · exact pixelHash_val_of_sum_mod h256 p
  · exact pixelHash_val_of_products_mod h256 p
  · exact pixelHash_val_of_products_mod (dvd_refl 64) p
  · decide

end Sys2Proof.Machine
end

section
/-! Operations on outcomes and the rules of the host's port: a write per engine, a read per access right (R47). -/

namespace Sys2Proof.Machine

theorem mapOutcome_eq_next {α β : Type} {f : α → β} {x : Host.Outcome α Fault Refusal} {b : β} :
    mapOutcome f x = .next b ↔ ∃ a, x = .next a ∧ f a = b := by
  cases x <;> simp [mapOutcome]

/-! ### Writes and start commands -/

section
variable {s : State}

theorem hostWriteEnc_of_not_busy (h : s.enc.status ≠ .busy) (e : EncState) :
    hostWriteEnc e s = .next { s with enc := e } := if_neg h

theorem hostWriteEnc_of_busy (h : s.enc.status = .busy) (e : EncState) :
    hostWriteEnc e s = .refused .hostWriteWhileBusy := if_pos h

theorem hostWriteDec_of_not_busy (h : s.dec.status ≠ .busy) (d : DecState) :
    hostWriteDec d s = .next { s with dec := d } := if_neg h

theorem hostWriteDec_of_busy (h : s.dec.status = .busy) (d : DecState) :
    hostWriteDec d s = .refused .hostWriteWhileBusy := if_pos h

theorem startEnc_of_busy (h : s.enc.status = .busy) : startEnc s = .next s := if_pos h

theorem startDec_of_busy (h : s.dec.status = .busy) : startDec s = .next s := if_pos h

end

/-! ### Reads -/

theorem hostExec_readReg {r : HostReg} {s : State} {v : Nat} (h : regRight r s = .value v) :
    hostExec (.readReg r) s = .next { s with hostData := v } := by
  rw [hostExec, h, hostRead]

theorem hostExec_readMem {sp : Space} {a : Nat} {s : State} {v : Nat} (h : memRight sp a s = .value v) :
    hostExec (.readMem sp a) s = .next { s with hostData := v } := by
  rw [hostExec, h, hostRead]

@[simp] theorem resultRight_done (v : Nat) : resultRight .done v = .value v := rfl

@[simp] theorem byteRight_some (b : Byte) : byteRight (some b) = .value b.toNat := rfl

@[simp] theorem outByteRight_done {len a : Nat} (h : a < len) (b : Byte) :
    outByteRight .done len a (some b) = .value b.toNat := if_pos h

/-- A value that a result register lets the host see is the register's own. -/
theorem resultRight_eq_value {st : Status} {v n : Nat} (h : resultRight st n = .value v) : n = v := by
  cases st with
  | done => cases h; rfl
  | idle => cases h
  | busy => cases h
  | error => cases h

theorem statusCode_lt (st : Status) : statusCode st < 2 ^ 2 := by cases st <;> decide

theorem encErrCode_lt (c : Option EncCause) : encErrCode c < 2 ^ 8 := by
  rcases c with _ | c
  · decide
  · cases c <;> decide

theorem decErrCode_lt (c : Option DecCause) : decErrCode c < 2 ^ 8 := by
  rcases c with _ | c
  · decide
  · cases c <;> decide

/-- A free value is reduced to the width of the register it is read from (log 7). -/
theorem freeValue_lt (w n : Nat) : freeValue (some w) n < 2 ^ w := Nat.mod_lt _ (by positivity)

/-- Every register of fixed width holds a value of that width (R22, R27, R32, R39). -/
theorem regRight_value_lt {r : HostReg} {s : State} {w v : Nat} (hw : regWidth r = some w)
    (hv : regRight r s = .value v) : v < 2 ^ w := by
  cases r <;> cases hw
  case encWidth => cases hv; exact s.enc.width.isLt
  case encHeight => cases hv; exact s.enc.height.isLt
  case encChannels => cases hv; exact s.enc.channels.isLt
  case encColorspace => cases hv; exact s.enc.colorspace.isLt
  case encStatus => cases hv; exact statusCode_lt s.enc.status
  case encErr => cases hv; exact encErrCode_lt s.enc.err
  case decStatus => cases hv; exact statusCode_lt s.dec.status
  case decErr => cases hv; exact decErrCode_lt s.dec.err
  case decWidth => cases resultRight_eq_value hv; exact s.dec.width.isLt
  case decHeight => cases resultRight_eq_value hv; exact s.dec.height.isLt
  case decChannels => cases resultRight_eq_value hv; exact s.dec.channels.isLt
  case decColorspace => cases resultRight_eq_value hv; exact s.dec.colorspace.isLt

/-- A read that answers returns the value allowed, or a free one; it writes nothing but the host's own fields. -/
theorem hostRead_cases {right : ReadRight} {w : Option Nat} {s t : State} (h : hostRead right w s = .next t) :
    (right = .value t.hostData ∨ t.hostData = freeValue w s.freeCount) ∧ t.enc = s.enc ∧ t.dec = s.dec := by
  cases right with
  | value v => cases h; exact ⟨.inl rfl, rfl, rfl⟩
  | unspecified => cases h; exact ⟨.inr rfl, rfl, rfl⟩
  | forbidden => cases h

end Sys2Proof.Machine
end

section
/-! What a move of one engine leaves alone: its own parameters and input, and everything outside it (R20, R43). -/

namespace Sys2Proof.Machine

/-- The final count check: too few pixels, or done (R212). -/
theorem decFinish_cases (d : DecState) :
    (d.po < d.quota ∧ d.finish = d.raise .insufficient) ∨
    (d.quota ≤ d.po ∧ d.finish = { d with status := .done }) := by
  by_cases h : d.po < d.quota
  · exact .inl ⟨h, if_pos h⟩
  · exact .inr ⟨Nat.le_of_not_lt h, if_neg h⟩

/-- A move of ENC writes its working registers, its results and `ENC_OUT` only. -/
theorem encMove_frame {e t : EncState} (h : e.move = .next t) :
    t = { e with
      prev := t.prev, run := t.run, pi := t.pi, wp := t.wp, cache := t.cache
      status := t.status, outLen := t.outLen, outMem := t.outMem } := by
  rcases encMove_cases h with ⟨-, rfl⟩ | ⟨-, -, rfl⟩ | ⟨-, -, px, -, rfl⟩
  · rfl
  · rw [encFinish_eq]; rfl
  · rw [pixelStep_frame]

/-- A move of DEC writes neither `DEC_INLEN` nor `DEC_IN`, and nothing outside DEC. -/
theorem decMove_frame {s t : State} (h : decMove s = .next t) :
    t.dec.inLen = s.dec.inLen ∧ t.dec.inMem = s.dec.inMem ∧ t = { s with dec := t.dec } := by
  rcases decMove_cases h with ⟨-, rfl⟩ | ⟨-, -, rfl⟩ | ⟨-, -, b0, -, ⟨-, rfl⟩ | ⟨-, k, px, rfl, -⟩⟩
  · exact ⟨rfl, rfl, rfl⟩
  · rcases decFinish_cases s.dec with ⟨-, hf⟩ | ⟨-, hf⟩ <;> rw [hf] <;> exact ⟨rfl, rfl, rfl⟩
  · exact ⟨rfl, rfl, rfl⟩
  · rw [DecState.emitTimes_frame]; exact ⟨rfl, rfl, rfl⟩

end Sys2Proof.Machine
end

section
/-! The decoder's invariant, status by status, and that every move keeps it (R35 to R39, R140, R210, R212). -/

namespace Sys2Proof.Machine

namespace DecState

/-! ### Registers after repeated emission -/

section
variable (k : Nat) (px : Pixel) (d : DecState)

@[simp] theorem emitTimes_inLen : (d.emitTimes k px).inLen = d.inLen := by rw [emitTimes_frame]
@[simp] theorem emitTimes_width : (d.emitTimes k px).width = d.width := by rw [emitTimes_frame]
@[simp] theorem emitTimes_height : (d.emitTimes k px).height = d.height := by rw [emitTimes_frame]
@[simp] theorem emitTimes_channels : (d.emitTimes k px).channels = d.channels := by rw [emitTimes_frame]
@[simp] theorem emitTimes_outLen : (d.emitTimes k px).outLen = d.outLen := by rw [emitTimes_frame]
@[simp] theorem emitTimes_rp : (d.emitTimes k px).rp = d.rp := by rw [emitTimes_frame]
@[simp] theorem emitTimes_pend : (d.emitTimes k px).pend = d.pend := by rw [emitTimes_frame]
@[simp] theorem emitTimes_po : (d.emitTimes k px).po = d.po + k := by rw [emitTimes_frame]
@[simp] theorem emitTimes_status : (d.emitTimes k px).status = d.status := by rw [emitTimes_frame]
@[simp] theorem emitTimes_err : (d.emitTimes k px).err = d.err := by rw [emitTimes_frame]

end

/-- Each emission writes the bytes right after those already written, so they stay without a gap (R67, R210). -/
theorem placed_emitTimes (k : Nat) (px : Pixel) {d : DecState} (hc : channelsOk d.channels)
    (h : d.outMem.Placed (d.po * d.channels.toNat)) :
    (d.emitTimes k px).outMem.Placed ((d.po + k) * d.channels.toNat) := by
  induction k generalizing d with
  | zero => exact h
  | succ k ih =>
    have hnext : (d.emit px).outMem.Placed ((d.emit px).po * (d.emit px).channels.toNat) := by
      have := Memory.placed_writeBytes (bs := pixelBytes d.channels px) h
      rwa [pixelBytes_length hc, ← Nat.succ_mul] at this
    have := ih (d := d.emit px) hc hnext
    rwa [emit_po, emit_channels, Nat.add_right_comm] at this

/-! ### The invariant by status -/

/-- What the invariant says of a BUSY decoder. -/
structure InPass (d : DecState) : Prop where
  err : d.err = none
  channels_ok : channelsOk d.channels
  rp_range : 14 ≤ d.rp ∧ d.rp ≤ d.pend ∧ d.pend ≤ d.inLen
  po_le : d.po ≤ d.quota
  out_len : d.outLen = d.channels.toNat * d.width.toNat * d.height.toNat
  written : d.outMem.Placed (d.po * d.channels.toNat)

variable {d : DecState}

theorem Inv.inPass (h : d.Inv) (hb : d.status = .busy) : d.InPass where
  err := by
    have := h.err_iff
    simpa [hb] using this
  channels_ok := h.channels_ok (.inl hb)
  rp_range := h.rp_range hb
  po_le := h.po_le hb
  out_len := h.out_len (.inl hb)
  written := h.written (.inl hb)

theorem InPass.inv (h : d.InPass) (hb : d.status = .busy) : d.Inv where
  err_iff := by simp [hb, h.err]
  err_ne_trailer := by simp [h.err]
  channels_ok _ := h.channels_ok
  rp_range _ := h.rp_range
  po_le _ := h.po_le
  done_po hd := by simp [hb] at hd
  out_len _ := h.out_len
  written _ := h.written

/-- A DONE decoder keeps what it had in the pass, at the full count. -/
theorem InPass.inv_done (h : d.InPass) (hq : d.quota ≤ d.po) : ({ d with status := .done } : DecState).Inv where
  err_iff := by simp [h.err]
  err_ne_trailer := by simp [h.err]
  channels_ok _ := h.channels_ok
  rp_range hb := by cases hb
  po_le hb := by cases hb
  done_po _ := h.po_le.antisymm hq
  out_len _ := h.out_len
  written _ := h.written

/-- In IDLE and ERROR the invariant speaks of the cause alone. -/
theorem inv_of_stopped (hb : d.status ≠ .busy) (hd : d.status ≠ .done) (he : d.status = .error ↔ d.err.isSome)
    (ht : d.err ≠ some .trailer) : d.Inv where
  err_iff := he
  err_ne_trailer := ht
  channels_ok h := (h.elim hb hd).elim
  rp_range h := absurd h hb
  po_le h := absurd h hb
  done_po h := absurd h hd
  out_len h := (h.elim hb hd).elim
  written h := (h.elim hb hd).elim

theorem inv_of_error {c : DecCause} (hs : d.status = .error) (he : d.err = some c) (hc : c ≠ .trailer) : d.Inv :=
  inv_of_stopped (by simp [hs]) (by simp [hs]) (by simp [hs, he]) (by simpa [he] using hc)

theorem inv_reset : reset.Inv := inv_of_stopped (by decide) (by decide) (by decide) (by decide)

/-! ### What each move keeps -/

/-- An instruction that ends within the payload and emits no more than the quota allows. -/
theorem InPass.emitTimes_advance (h : d.InPass) {k l : Nat} (px : Pixel) (hpo : d.po + k ≤ d.quota)
    (hrp : d.rp + l ≤ d.pend) : ((d.emitTimes k px).advance l).InPass where
  err := by simpa using h.err
  channels_ok := by simpa using h.channels_ok
  rp_range := by
    obtain ⟨hlo, -, hhi⟩ := h.rp_range
    simp only [advance_rp, advance_pend, advance_inLen, emitTimes_rp, emitTimes_pend, emitTimes_inLen]
    omega
  po_le := by simpa [quota] using hpo
  out_len := by simpa using h.out_len
  written := by simpa using placed_emitTimes k px h.channels_ok h.written

theorem InPass.skipTruncated (h : d.InPass) : d.skipTruncated.InPass where
  err := h.err
  channels_ok := h.channels_ok
  rp_range := by
    obtain ⟨hlo, hmid, hhi⟩ := h.rp_range
    exact ⟨hlo.trans hmid, le_rfl, hhi⟩
  po_le := h.po_le
  out_len := h.out_len
  written := h.written

theorem InPass.inv_finish (h : d.InPass) : d.finish.Inv := by
  rcases decFinish_cases d with ⟨-, hf⟩ | ⟨hq, hf⟩ <;> rw [hf]
  · exact inv_of_error rfl rfl (by decide)
  · exact h.inv_done hq

/-- What the synchroniser passes is ready for the pass: no pixel emitted, `DEC_RP` at the payload's start. -/
theorem inPass_init {u : DecState} (h : SyncPassed d u) : u.init.InPass where
  err := h.err
  channels_ok := h.channels
  rp_range := ⟨le_rfl, h.pend.1, h.pend.2.trans h.writes.inLen.ge⟩
  po_le := Nat.zero_le _
  out_len := h.outLen
  written a ha := by simp at ha

/-- An accepted `START_DEC` meets the invariant, whatever the decoder held before. -/
theorem inv_start {t : DecState} (h : d.start = .next t) : t.Inv := by
  rcases decStart_cases h with ⟨u, hu, rfl⟩ | ⟨-, hs, he | he | he⟩
  · exact (inPass_init hu).inv hu.busy
  · exact inv_of_error hs he (by decide)
  · exact inv_of_error hs he (by decide)
  · exact inv_of_error hs he (by decide)

/-- The clauses that mention the input speak of a BUSY decoder only. -/
theorem Inv.writeInput (h : d.Inv) (hb : d.status ≠ .busy) (n : Nat) (m : Memory) :
    ({ d with inLen := n, inMem := m } : DecState).Inv :=
  { h with rp_range := fun hb' => absurd hb' hb }

end DecState

theorem decMove_keeps_decInv {s t : State} (h : s.dec.Inv) (hm : decMove s = .next t) : t.dec.Inv := by
  rcases decMove_cases hm with ⟨-, rfl⟩ | ⟨hb, -, rfl⟩ | ⟨hb, hmore, b0, -, ⟨-, rfl⟩ | ⟨hrp, k, px, rfl, hk⟩⟩
  · exact h
  · exact (h.inPass hb).inv_finish
  · exact (h.inPass hb).skipTruncated.inv hb
  · have hpo : s.dec.po + k ≤ s.dec.quota := by
      have := hmore.2
      omega
    exact ((h.inPass hb).emitTimes_advance px hpo hrp).inv (by simpa using hb)

theorem hostExec_keeps_decInv {c : HostCmd} {s t : State} (h : s.dec.Inv) (hx : hostExec c s = .next t) :
    t.dec.Inv := by
  rcases (hostExec_cases hx).2 with hd | hd | ⟨hb, hd | ⟨n, m, hd, -⟩⟩
  · exact hd ▸ h
  · exact hd ▸ DecState.inv_reset
  · exact DecState.inv_start hd
  · exact hd ▸ h.writeInput hb n m

/-- Settles O51: ENC leaves DEC alone, DEC's own move and the host's commands keep the invariant. -/
theorem stepKeepsDecoderInvariant : Obligations.StepKeepsDecoderInvariant := by
  intro s t h hstep
  rcases step_cases hstep with ⟨-, e, -, rfl⟩ | ⟨-, hm⟩ | ⟨-, ⟨-, rfl⟩ | ⟨c, cs, -, hx⟩⟩
  · exact h
  · exact decMove_keeps_decInv (s := popTurn s) h hm
  · exact h
  · exact hostExec_keeps_decInv (s := { popTurn s with host := cs }) h hx

end Sys2Proof.Machine
end

section
/-! The statements on isolation, reset and the host's port. -/

namespace Sys2Proof.Machine

/-- Settles O46: DEC's move does not read ENC (`decMove_with`) and writes DEC alone (`decMove_frame`). -/
theorem engineMovesCommute : Obligations.EngineMovesCommute := by
  intro s t u henc hdec
  obtain ⟨e, he, rfl⟩ := mapOutcome_eq_next.1 henc
  obtain ⟨t', ht', rfl⟩ := mapOutcome_eq_next.1 ((decMove_with s e s.host s.turns).symm.trans hdec)
  obtain ⟨-, -, hframe⟩ := decMove_frame ht'
  refine ⟨t', ht', mapOutcome_eq_next.2 ⟨e, ?_, ?_⟩⟩
  · rw [hframe]; exact he
  · rw [hframe]

/-- Settles O47: the frames of the two engines' moves. -/
theorem enginesWriteOnlyTheirOwn : Obligations.EnginesWriteOnlyTheirOwn := by
  intro s t hstep
  constructor
  · intro ha
    rw [step_enc ha] at hstep
    obtain ⟨e, he, rfl⟩ := mapOutcome_eq_next.1 hstep
    rw [encMove_frame he]
    exact ⟨rfl, rfl, rfl, rfl, rfl, rfl, rfl⟩
  · intro ha
    rw [step_dec ha] at hstep
    exact decMove_frame hstep

/-- Settles O1: each register of the reset state by its definition. -/
theorem resetGivesPowerOnValues : Obligations.ResetGivesPowerOnValues := by
  exact ⟨rfl, rfl, rfl, rfl, rfl, rfl, rfl, rfl, rfl, rfl, rfl, rfl, rfl, rfl, rfl, rfl⟩

/-- An IDLE encoder without a cause and without an open run: the other clauses speak of BUSY and DONE. -/
theorem EncState.inv_of_idle {e : EncState} (hs : e.status = .idle) (he : e.err = none) (hr : e.run = 0) : e.Inv where
  run_le := by omega
  err_iff := by simp [hs, he]
  checked h := by simp [hs] at h
  pi_le h := by simp [hs] at h
  wp_bound h := by simp [hs] at h
  opaque_prev h := by simp [hs] at h
  opaque_cache h := by simp [hs] at h
  prev_cached h := by simp [hs] at h
  written h := by simp [hs] at h
  done_len h := by simp [hs] at h

/-- Settles O2: the memories are empty, both engines IDLE without a cause. -/
theorem resetMeetsInvariant : Obligations.ResetMeetsInvariant where
  mem := Memory.memOk_reset
  enc := EncState.inv_of_idle rfl rfl rfl
  dec := DecState.inv_reset

/-- Settles O40: the host's step delivers the command, which a BUSY engine ignores. -/
theorem busyEngineIgnoresStart : Obligations.BusyEngineIgnoresStart := by
  intro s cs ha
  constructor
  · intro hb hh
    rw [step_host ha hh]
    exact startEnc_of_busy hb
  · intro hb hh
    rw [step_host ha hh]
    exact startDec_of_busy hb

/-- Settles O41: a write reaches the engine exactly while it is not BUSY; bytes written are read back and no other byte
changes. -/
theorem hostWritesNeedEngineNotBusy : Obligations.HostWritesNeedEngineNotBusy := by
  intro s
  refine ⟨fun h => ?_, fun h => ?_, fun h => ?_, fun h => ?_⟩
  · have write := hostWriteEnc_of_not_busy h
    exact ⟨fun _ => write _, fun _ => write _, fun _ => write _, fun _ => write _, fun _ => write _,
      fun _ _ => ⟨_, write _, Memory.readBytes_writeBytes, fun _ => Memory.read_writeBytes_outside⟩⟩
  · have write := hostWriteDec_of_not_busy h
    exact ⟨fun _ => write _,
      fun _ _ => ⟨_, write _, Memory.readBytes_writeBytes, fun _ => Memory.read_writeBytes_outside⟩⟩
  · have refuse := hostWriteEnc_of_busy h
    exact ⟨fun _ => refuse _, fun _ => refuse _, fun _ => refuse _, fun _ => refuse _, fun _ => refuse _,
      fun _ _ => refuse _⟩
  · have refuse := hostWriteDec_of_busy h
    exact ⟨fun _ => refuse _, fun _ _ => refuse _⟩

/-- Settles O42: in each case the access right is a value, which the read delivers. -/
theorem hostReadsResultsWhenDone : Obligations.HostReadsResultsWhenDone := by
  refine ⟨⟨rfl, rfl, rfl, rfl⟩, fun s => ⟨rfl, rfl, rfl, rfl, fun h => ?_, fun h => ?_⟩⟩
  · have right (n : Nat) : resultRight s.enc.status n = .value n := by simp [h]
    refine ⟨hostExec_readReg (right _), fun a b ha hb => hostExec_readMem ?_⟩
    simp [memRight, h, hb, ha]
  · have right (n : Nat) : resultRight s.dec.status n = .value n := by simp [h]
    refine ⟨hostExec_readReg (right _), hostExec_readReg (right _), hostExec_readReg (right _),
      hostExec_readReg (right _), hostExec_readReg (right _), fun a b ha hb => hostExec_readMem ?_⟩
    simp [memRight, h, hb, ha]

/-- Settles O43: a value allowed fits its register, a free value is reduced to fit it. -/
theorem hostReadFitsRegisterWidth : Obligations.HostReadFitsRegisterWidth := by
  intro s t r w hw hread
  obtain ⟨hval | hfree, hengines⟩ := hostRead_cases hread
  · exact ⟨regRight_value_lt hw hval, hengines⟩
  · rw [hw] at hfree
    exact ⟨hfree ▸ freeValue_lt w s.freeCount, hengines⟩

/-- Settles O57: parameters and placed input bytes have the right to be read in every status. -/
theorem hostReadsParametersAlways : Obligations.HostReadsParametersAlways := by
  refine fun s => ⟨rfl, rfl, rfl, rfl, rfl, rfl,
    fun a b hb => hostExec_readMem ?_, fun a b hb => hostExec_readMem ?_⟩
  · simp [memRight, hb]
  · simp [memRight, hb]

end Sys2Proof.Machine
end

section
/-! The canonical form of the memories, engine by engine, and that every step keeps it (R60, R61, log 2). -/

namespace Sys2Proof.Machine

namespace EncState

/-- The encoder's two spaces are in canonical form. -/
def MemOk (e : EncState) : Prop := e.inMem.wf ∧ e.outMem.wf

variable {e : EncState}

theorem memOk_reset : reset.MemOk := ⟨Memory.wf_nil, Memory.wf_nil⟩

theorem MemOk.init (h : e.MemOk) : e.init.MemOk := h

theorem MemOk.writeInput {m : Memory} (h : e.MemOk) (hm : e.inMem.wf → Memory.wf m) (w hh : Word32) (c cs : Byte)
    (n : Nat) :
    ({ e with width := w, height := hh, channels := c, colorspace := cs, inLen := n, inMem := m } : EncState).MemOk :=
  ⟨hm h.1, h.2⟩

/-- `append`, the only writer of `ENC_OUT` (R176), is a sequence of writes. -/
theorem MemOk.append (h : e.MemOk) (bs : List Byte) : (e.append bs).MemOk := ⟨h.1, Memory.wf_writeBytes h.2⟩

theorem MemOk.pixelStep (h : e.MemOk) (px : Pixel) : (e.pixelStep px).MemOk := by
  rcases pixelStep_cases px e with ⟨-, -, hs⟩ | ⟨-, -, hs⟩ | ⟨-, -, hs⟩ | ⟨-, -, hs⟩ <;> rw [hs]
  · exact h
  · exact h.append _
  · exact h.append _
  · exact h.append _

theorem MemOk.finish (h : e.MemOk) : e.finish.MemOk := by
  rw [encFinish_eq]
  exact h.append _

theorem MemOk.start (h : e.MemOk) : e.start.MemOk := by
  rcases encStart_cases e with ⟨-, hs⟩ | ⟨-, -, hs⟩ | ⟨-, -, hs⟩ <;> rw [hs]
  · exact h
  · exact h
  · have hinit := MemOk.init (e := { e with status := .busy, err := none }) h
    exact hinit.append _

theorem MemOk.move {t : EncState} (h : e.MemOk) (hm : e.move = .next t) : t.MemOk := by
  rcases encMove_cases hm with ⟨-, rfl⟩ | ⟨-, -, rfl⟩ | ⟨-, -, px, -, rfl⟩
  · exact h
  · exact h.finish
  · exact h.pixelStep px

end EncState

namespace DecState

/-- The decoder's two spaces are in canonical form. -/
def MemOk (d : DecState) : Prop := d.inMem.wf ∧ d.outMem.wf

variable {d : DecState}

theorem memOk_reset : reset.MemOk := ⟨Memory.wf_nil, Memory.wf_nil⟩

theorem MemOk.writeInput {m : Memory} (h : d.MemOk) (hm : d.inMem.wf → Memory.wf m) (n : Nat) :
    ({ d with inLen := n, inMem := m } : DecState).MemOk := ⟨hm h.1, h.2⟩

theorem MemOk.init (h : d.MemOk) : d.init.MemOk := h

/-- `EMIT`, the only writer of `DEC_OUT` (R210), is a sequence of writes. -/
theorem MemOk.emit (h : d.MemOk) (px : Pixel) : (d.emit px).MemOk := ⟨h.1, Memory.wf_writeBytes h.2⟩

theorem MemOk.emitTimes (h : d.MemOk) (k : Nat) (px : Pixel) : (d.emitTimes k px).MemOk := by
  induction k generalizing d with
  | zero => exact h
  | succ k ih => exact ih (h.emit px)

theorem MemOk.finish (h : d.MemOk) : d.finish.MemOk := by
  rcases decFinish_cases d with ⟨-, hf⟩ | ⟨-, hf⟩ <;> rw [hf] <;> exact h

/-- The synchroniser writes neither space. -/
theorem MemOk.syncWrites {t : DecState} (h : d.MemOk) (hw : SyncWrites d t) : t.MemOk :=
  ⟨hw.inMem ▸ h.1, hw.outMem ▸ h.2⟩

theorem MemOk.start {t : DecState} (h : d.MemOk) (hs : d.start = .next t) : t.MemOk := by
  rcases decStart_cases hs with ⟨u, hu, rfl⟩ | ⟨hw, -⟩
  · have hsync : u.MemOk := MemOk.syncWrites (d := { d with status := .busy, err := none }) h hu.writes
    exact hsync.init
  · exact h.syncWrites hw

end DecState

theorem State.memOk_iff {s : State} : s.MemOk ↔ s.enc.MemOk ∧ s.dec.MemOk :=
  and_assoc.symm

/-- A move of DEC writes `DEC_OUT` by emissions and no other space. -/
theorem decMove_keeps_decMemOk {s t : State} (h : s.dec.MemOk) (hm : decMove s = .next t) : t.dec.MemOk := by
  rcases decMove_cases hm with ⟨-, rfl⟩ | ⟨-, -, rfl⟩ | ⟨-, -, b0, -, ⟨-, rfl⟩ | ⟨-, k, px, rfl, -⟩⟩
  · exact h
  · exact h.finish
  · exact h
  · exact h.emitTimes k px

/-- A host command writes an input space, starts an engine, resets, or leaves the spaces alone. -/
theorem hostExec_keeps_memOk {c : HostCmd} {s t : State} (h : s.MemOk) (hx : hostExec c s = .next t) : t.MemOk := by
  obtain ⟨he, hd⟩ := State.memOk_iff.1 h
  obtain ⟨henc, hdec⟩ := hostExec_cases hx
  refine State.memOk_iff.2 ⟨?_, ?_⟩
  · rcases henc with ht | ht | ⟨-, ht | ⟨w, hh, cn, cs, n, m, ht, hm⟩⟩ <;> rw [ht]
    · exact he
    · exact EncState.memOk_reset
    · exact he.start
    · exact he.writeInput hm w hh cn cs n
  · rcases hdec with ht | ht | ⟨-, ht | ⟨n, m, ht, hm⟩⟩
    · exact ht ▸ hd
    · exact ht ▸ DecState.memOk_reset
    · exact hd.start ht
    · exact ht ▸ hd.writeInput hm n

/-- Settles O49: an engine's move keeps its own spaces in canonical form and leaves the other engine's alone, and so
does each host command; every change of a space is a sequence of `Memory.write` or the empty space of reset. -/
theorem stepKeepsMemoryCanonical : Obligations.StepKeepsMemoryCanonical := by
  intro s t h hstep
  obtain ⟨he, hd⟩ := State.memOk_iff.1 h
  rcases step_cases hstep with ⟨-, e, hm, rfl⟩ | ⟨-, hm⟩ | ⟨-, ⟨-, rfl⟩ | ⟨c, cs, -, hx⟩⟩
  · exact State.memOk_iff.2 ⟨he.move hm, hd⟩
  · obtain ⟨-, -, hframe⟩ := decMove_frame hm
    have henc : t.enc = s.enc := by rw [hframe]; rfl
    exact State.memOk_iff.2 ⟨henc ▸ he, decMove_keeps_decMemOk (s := popTurn s) hd hm⟩
  · exact h
  · exact hostExec_keeps_memOk (s := { popTurn s with host := cs }) h hx

end Sys2Proof.Machine
end

section
/-! The formats of R99 to R104, class by class: what the parser reads from a first byte of each class, and that the
notation table of R110 writes the same byte. Packed bytes are compared by their values, `opcode + fields * 2^shift`. -/

namespace Sys2Proof

/-! ### The classes of first bytes (R98, R107) -/

/-- The top two bits of a byte, which tell the last four classes apart, are its quotient by 64 (R98). -/
theorem topBits_eq_iff (b : Byte) :
    (b &&& 0xC0 = 0x00 ↔ b.toNat / 64 = 0) ∧ (b &&& 0xC0 = 0x40 ↔ b.toNat / 64 = 1) ∧
    (b &&& 0xC0 = 0x80 ↔ b.toNat / 64 = 2) ∧ (b &&& 0xC0 = 0xC0 ↔ b.toNat / 64 = 3) := by
  revert b
  decide

/-- The opcode map in the order of R98, by values instead of bits. -/
theorem classify_eq_ite_toNat (b : Byte) :
    classify b =
      if b.toNat = 0xFE then .rgb
      else if b.toNat = 0xFF then .rgba
      else if b.toNat / 64 = 0 then .index
      else if b.toNat / 64 = 1 then .diff
      else if b.toNat / 64 = 2 then .luma
      else .run := by
  obtain ⟨hindex, hdiff, hluma, -⟩ := topBits_eq_iff b
  have hrgb : b = 0xFE ↔ b.toNat = 0xFE := BitVec.toNat_inj.symm
  have hrgba : b = 0xFF ↔ b.toNat = 0xFF := BitVec.toNat_inj.symm
  simp only [classify, hrgb, hrgba, hindex, hdiff, hluma]

section
variable (b : Byte)

theorem classify_eq_rgb_iff : classify b = .rgb ↔ b.toNat = 0xFE := by
  rw [classify_eq_ite_toNat]; split_ifs <;> simp <;> omega

theorem classify_eq_rgba_iff : classify b = .rgba ↔ b.toNat = 0xFF := by
  rw [classify_eq_ite_toNat]; split_ifs <;> simp <;> omega

theorem classify_eq_index_iff : classify b = .index ↔ b.toNat ≤ 0x3F := by
  rw [classify_eq_ite_toNat]; split_ifs <;> simp <;> omega

theorem classify_eq_diff_iff : classify b = .diff ↔ 0x40 ≤ b.toNat ∧ b.toNat ≤ 0x7F := by
  rw [classify_eq_ite_toNat]; split_ifs <;> simp <;> omega

theorem classify_eq_luma_iff : classify b = .luma ↔ 0x80 ≤ b.toNat ∧ b.toNat ≤ 0xBF := by
  rw [classify_eq_ite_toNat]; split_ifs <;> simp <;> omega

theorem classify_eq_run_iff : classify b = .run ↔ 0xC0 ≤ b.toNat ∧ b.toNat ≤ 0xFD := by
  have hlt := b.isLt
  rw [classify_eq_ite_toNat]; split_ifs <;> simp <;> omega

end

/-! ### The parser, one equation per class (R99 to R104) -/

section
variable {b0 : Byte} (tl : List Byte)

theorem decode_index (h : classify b0 = .index) :
    decode (b0 :: tl) = .ok (.index (Fin.ofNat 64 (field b0 0 6)), tl) := by
  simp only [decode, h]

theorem decode_diff (h : classify b0 = .diff) :
    decode (b0 :: tl) = .ok (.diff ((field b0 4 2 : Int) - 2) ((field b0 2 2 : Int) - 2) ((field b0 0 2 : Int) - 2),
      tl) := by
  simp only [decode, h]

theorem decode_luma (h : classify b0 = .luma) (b1 : Byte) :
    decode (b0 :: b1 :: tl) = .ok (.luma ((field b0 0 6 : Int) - 32) ((field b1 4 4 : Int) - 8)
      ((field b1 0 4 : Int) - 8), tl) := by
  simp only [decode, h]

theorem decode_run (h : classify b0 = .run) : decode (b0 :: tl) = .ok (.run (field b0 0 6 + 1), tl) := by
  simp only [decode, h]

end

/-! ### The notation table, one equation per form (R110) -/

section
variable {x y z : Nat}

theorem encode_index (hx : x < 64) : encode (.index ⟨x, hx⟩) = [BitVec.ofNat 8 x] := by
  simp [encode]

/-- The three fields of `DIFF` do not overlap each other or the opcode bits (R100). -/
theorem encode_diff (hx : x < 4) (hy : y < 4) (hz : z < 4) :
    encode (.diff ((x : Int) - 2) ((y : Int) - 2) ((z : Int) - 2)) =
      [BitVec.ofNat 8 (0x40 + 16 * x + 4 * y + z)] := by
  have packed : ∀ x y z : Fin 4, (0x40 : Byte) ||| BitVec.ofNat 8 x.val <<< 4 ||| BitVec.ofNat 8 y.val <<< 2 |||
      BitVec.ofNat 8 z.val = BitVec.ofNat 8 (0x40 + 16 * x.val + 4 * y.val + z.val) := by decide
  have := packed ⟨x, hx⟩ ⟨y, hy⟩ ⟨z, hz⟩
  simpa [encode, biased] using this

/-- The field of `LUMA`'s first byte does not overlap the opcode bits, and those of its second byte not each other
(R101). -/
theorem encode_luma (hx : x < 64) (hy : y < 16) (hz : z < 16) :
    encode (.luma ((x : Int) - 32) ((y : Int) - 8) ((z : Int) - 8)) =
      [BitVec.ofNat 8 (0x80 + x), BitVec.ofNat 8 (16 * y + z)] := by
  have first : ∀ x : Fin 64, (0x80 : Byte) ||| BitVec.ofNat 8 x.val = BitVec.ofNat 8 (0x80 + x.val) := by decide
  have second : ∀ y z : Fin 16, BitVec.ofNat 8 y.val <<< 4 ||| BitVec.ofNat 8 z.val =
      BitVec.ofNat 8 (16 * y.val + z.val) := by decide
  have h0 := first ⟨x, hx⟩
  have h1 := second ⟨y, hy⟩ ⟨z, hz⟩
  simpa [encode, biased] using And.intro h0 h1

/-- The field of `RUN` does not overlap the opcode bits (R102). -/
theorem encode_run (hx : x < 64) : encode (.run (x + 1)) = [BitVec.ofNat 8 (0xC0 + x)] := by
  have packed : ∀ x : Fin 64, (0xC0 : Byte) ||| BitVec.ofNat 8 x.val = BitVec.ofNat 8 (0xC0 + x.val) := by decide
  simpa [encode] using packed ⟨x, hx⟩

end

/-! ### The operand ranges (R105) -/

theorem Instr.wellFormed_diff_iff {dr dg db : Int} :
    (Instr.diff dr dg db).WellFormed ↔ Machine.diffFits dr dg db := by
  simp [Instr.WellFormed, Instr.wellFormed, and_assoc]

theorem Instr.wellFormed_luma_iff {dg drg dbg : Int} :
    (Instr.luma dg drg dbg).WellFormed ↔ Machine.lumaFits dg drg dbg := by
  simp [Instr.WellFormed, Instr.wellFormed, and_assoc]

theorem Instr.wellFormed_run_iff {n : Nat} : (Instr.run n).WellFormed ↔ 1 ≤ n ∧ n ≤ 62 := by
  simp [Instr.WellFormed, Instr.wellFormed]

/-- An operand in range is a field minus its bias (R105). -/
theorem exists_field {v bias : Int} {n : Nat} (hlo : -bias ≤ v) (hhi : v < n - bias) :
    ∃ x : Nat, x < n ∧ v = (x : Int) - bias :=
  ⟨(v + bias).toNat, by omega, by omega⟩

/-! ### Parsing what the table writes -/

section
variable {x y z : Nat} (tl : List Byte)

theorem decode_indexByte (hx : x < 64) : decode (BitVec.ofNat 8 x :: tl) = .ok (.index ⟨x, hx⟩, tl) := by
  have hval : (BitVec.ofNat 8 x).toNat = x := by simp; omega
  rw [decode_index tl ((classify_eq_index_iff _).2 (by omega)), field_eq, hval]
  simp [Fin.ext_iff]
  omega

theorem decode_diffByte (hx : x < 4) (hy : y < 4) (hz : z < 4) :
    decode (BitVec.ofNat 8 (0x40 + 16 * x + 4 * y + z) :: tl) =
      .ok (.diff ((x : Int) - 2) ((y : Int) - 2) ((z : Int) - 2), tl) := by
  have hval : (BitVec.ofNat 8 (0x40 + 16 * x + 4 * y + z)).toNat = 0x40 + 16 * x + 4 * y + z := by simp; omega
  rw [decode_diff tl ((classify_eq_diff_iff _).2 (by omega)), field_eq, field_eq, field_eq, hval]
  have hfx : (0x40 + 16 * x + 4 * y + z) / 2 ^ 4 % 2 ^ 2 = x := by omega
  have hfy : (0x40 + 16 * x + 4 * y + z) / 2 ^ 2 % 2 ^ 2 = y := by omega
  have hfz : (0x40 + 16 * x + 4 * y + z) / 2 ^ 0 % 2 ^ 2 = z := by omega
  rw [hfx, hfy, hfz]

theorem decode_lumaBytes (hx : x < 64) (hy : y < 16) (hz : z < 16) :
    decode (BitVec.ofNat 8 (0x80 + x) :: BitVec.ofNat 8 (16 * y + z) :: tl) =
      .ok (.luma ((x : Int) - 32) ((y : Int) - 8) ((z : Int) - 8), tl) := by
  have hval0 : (BitVec.ofNat 8 (0x80 + x)).toNat = 0x80 + x := by simp; omega
  have hval1 : (BitVec.ofNat 8 (16 * y + z)).toNat = 16 * y + z := by simp; omega
  rw [decode_luma tl ((classify_eq_luma_iff _).2 (by omega)), field_eq, field_eq, field_eq, hval0, hval1]
  have hfx : (0x80 + x) / 2 ^ 0 % 2 ^ 6 = x := by omega
  have hfy : (16 * y + z) / 2 ^ 4 % 2 ^ 4 = y := by omega
  have hfz : (16 * y + z) / 2 ^ 0 % 2 ^ 4 = z := by omega
  rw [hfx, hfy, hfz]

theorem decode_runByte (hx : x < 62) : decode (BitVec.ofNat 8 (0xC0 + x) :: tl) = .ok (.run (x + 1), tl) := by
  have hval : (BitVec.ofNat 8 (0xC0 + x)).toNat = 0xC0 + x := by simp; omega
  have hfx : (0xC0 + x) / 2 ^ 0 % 2 ^ 6 = x := by omega
  rw [decode_run tl ((classify_eq_run_iff _).2 (by omega)), field_eq, hval, hfx]

end

/-- Settles O8: by form, each operand in range is a field, and the parser reads the fields back from the packed
bytes. -/
theorem decodeInvertsEncode : Obligations.DecodeInvertsEncode := by
  intro i rest h
  cases i with
  | rgb r g b => rfl
  | rgba r g b a => rfl
  | index idx => rw [encode_index idx.isLt]; exact decode_indexByte rest idx.isLt
  | diff dr dg db =>
    obtain ⟨hr, hg, hb⟩ := Instr.wellFormed_diff_iff.1 h
    obtain ⟨x, hx, rfl⟩ := exists_field (v := dr) (bias := 2) (n := 4) (by omega) (by omega)
    obtain ⟨y, hy, rfl⟩ := exists_field (v := dg) (bias := 2) (n := 4) (by omega) (by omega)
    obtain ⟨z, hz, rfl⟩ := exists_field (v := db) (bias := 2) (n := 4) (by omega) (by omega)
    rw [encode_diff hx hy hz]
    exact decode_diffByte rest hx hy hz
  | luma dg drg dbg =>
    obtain ⟨hg, hrg, hbg⟩ := Instr.wellFormed_luma_iff.1 h
    obtain ⟨x, hx, rfl⟩ := exists_field (v := dg) (bias := 32) (n := 64) (by omega) (by omega)
    obtain ⟨y, hy, rfl⟩ := exists_field (v := drg) (bias := 8) (n := 16) (by omega) (by omega)
    obtain ⟨z, hz, rfl⟩ := exists_field (v := dbg) (bias := 8) (n := 16) (by omega) (by omega)
    rw [encode_luma hx hy hz]
    exact decode_lumaBytes rest hx hy hz
  | run length =>
    obtain ⟨hlo, hhi⟩ := Instr.wellFormed_run_iff.1 h
    obtain ⟨x, rfl⟩ : ∃ x, length = x + 1 := ⟨length - 1, by omega⟩
    rw [encode_run (by omega)]
    exact decode_runByte rest (by omega)

/-! ### Writing what the parser read -/

section
variable {b0 : Byte}

theorem encode_indexFields (h : classify b0 = .index) : encode (.index (Fin.ofNat 64 (field b0 0 6))) = [b0] := by
  have hb := (classify_eq_index_iff b0).1 h
  have hval : field b0 0 6 = b0.toNat := by rw [field_eq]; omega
  have hidx : Fin.ofNat 64 (field b0 0 6) = ⟨b0.toNat, by omega⟩ := Fin.ext (by simp [hval]; omega)
  rw [hidx, encode_index, BitVec.ofNat_toNat, BitVec.setWidth_eq]

theorem encode_diffFields (h : classify b0 = .diff) :
    encode (.diff ((field b0 4 2 : Int) - 2) ((field b0 2 2 : Int) - 2) ((field b0 0 2 : Int) - 2)) = [b0] := by
  have hb := (classify_eq_diff_iff b0).1 h
  have hval : 0x40 + 16 * field b0 4 2 + 4 * field b0 2 2 + field b0 0 2 = b0.toNat := by
    simp only [field_eq]; omega
  rw [encode_diff (field_lt b0 4 2) (field_lt b0 2 2) (field_lt b0 0 2), hval, BitVec.ofNat_toNat,
    BitVec.setWidth_eq]

theorem encode_lumaFields (h : classify b0 = .luma) (b1 : Byte) :
    encode (.luma ((field b0 0 6 : Int) - 32) ((field b1 4 4 : Int) - 8) ((field b1 0 4 : Int) - 8)) = [b0, b1] := by
  have hb := (classify_eq_luma_iff b0).1 h
  have hlt := b1.isLt
  have hval0 : 0x80 + field b0 0 6 = b0.toNat := by rw [field_eq]; omega
  have hval1 : 16 * field b1 4 4 + field b1 0 4 = b1.toNat := by simp only [field_eq]; omega
  rw [encode_luma (field_lt b0 0 6) (field_lt b1 4 4) (field_lt b1 0 4), hval0, hval1]
  simp

theorem encode_runField (h : classify b0 = .run) : encode (.run (field b0 0 6 + 1)) = [b0] := by
  have hb := (classify_eq_run_iff b0).1 h
  have hval : 0xC0 + field b0 0 6 = b0.toNat := by rw [field_eq]; omega
  rw [encode_run (field_lt b0 0 6), hval, BitVec.ofNat_toNat, BitVec.setWidth_eq]

theorem wellFormed_diffFields (b : Byte) :
    (Instr.diff ((field b 4 2 : Int) - 2) ((field b 2 2 : Int) - 2) ((field b 0 2 : Int) - 2)).WellFormed := by
  have hx := field_lt b 4 2
  have hy := field_lt b 2 2
  have hz := field_lt b 0 2
  rw [Instr.wellFormed_diff_iff]
  omega

theorem wellFormed_lumaFields (b0 b1 : Byte) :
    (Instr.luma ((field b0 0 6 : Int) - 32) ((field b1 4 4 : Int) - 8) ((field b1 0 4 : Int) - 8)).WellFormed := by
  have hx := field_lt b0 0 6
  have hy := field_lt b1 4 4
  have hz := field_lt b1 0 4
  rw [Instr.wellFormed_luma_iff]
  omega

/-- The two largest field values would make a length above 62; they are the opcodes of `RGB` and `RGBA`. -/
theorem wellFormed_runField (h : classify b0 = .run) : (Instr.run (field b0 0 6 + 1)).WellFormed := by
  have hb := (classify_eq_run_iff b0).1 h
  rw [Instr.wellFormed_run_iff, field_eq]
  omega

end

/-- Settles O9: by the class of the first byte. Its fields are in range and the table packs them into the same bytes;
a tail too short for the class is no answer. -/
theorem encodeInvertsDecode : Obligations.EncodeInvertsDecode := by
  intro bs i rest h
  rcases bs with _ | ⟨b0, tl⟩
  · cases h
  cases hc : classify b0 with
  | rgb =>
    obtain rfl : b0 = 0xFE := Machine.byte_ext ((classify_eq_rgb_iff b0).1 hc)
    rcases tl with _ | ⟨b1, _ | ⟨b2, _ | ⟨b3, t⟩⟩⟩ <;> cases h
    exact ⟨rfl, rfl⟩
  | rgba =>
    obtain rfl : b0 = 0xFF := Machine.byte_ext ((classify_eq_rgba_iff b0).1 hc)
    rcases tl with _ | ⟨b1, _ | ⟨b2, _ | ⟨b3, _ | ⟨b4, t⟩⟩⟩⟩ <;> cases h
    exact ⟨rfl, rfl⟩
  | index =>
    cases (decode_index tl hc).symm.trans h
    exact ⟨rfl, by rw [encode_indexFields hc]; rfl⟩
  | diff =>
    cases (decode_diff tl hc).symm.trans h
    exact ⟨wellFormed_diffFields b0, by rw [encode_diffFields hc]; rfl⟩
  | luma =>
    rcases tl with _ | ⟨b1, t⟩
    · simp [decode, hc] at h
    · cases (decode_luma t hc b1).symm.trans h
      exact ⟨wellFormed_lumaFields b0 b1, by rw [encode_lumaFields hc]; rfl⟩
  | run =>
    cases (decode_run tl hc).symm.trans h
    exact ⟨wellFormed_runField hc, by rw [encode_runField hc]; rfl⟩

/-! ### First bytes, lengths and missing bytes (R98, R107, R203) -/

/-- Settles O10: either answer of the parser on a first byte fixes which side of the class's length the tail is on. -/
theorem decodeFailsOnlyOnMissingBytes : Obligations.DecodeFailsOnlyOnMissingBytes := by
  refine ⟨rfl, fun b0 tl => ?_⟩
  cases h : decode (b0 :: tl) with
  | error e =>
    obtain ⟨rfl, hmissing⟩ := decode_cons_error h
    exact ⟨fun _ => rfl, fun hall => absurd hall (by omega)⟩
  | ok p =>
    obtain ⟨i, rest⟩ := p
    obtain ⟨-, hall, rfl⟩ := decode_cons_ok h
    exact ⟨fun hmissing => absurd hmissing (by omega), fun _ => ⟨i, rfl⟩⟩

/-- Settles O5: the classes by the tests of R98 in order, the rest by what the parser can answer on a first byte. -/
theorem firstByteSelectsClassAndLength : Obligations.FirstByteSelectsClassAndLength := by
  refine ⟨fun b => ⟨fun h => if_pos h, fun h => by rw [h]; rfl, fun hrgb hrgba => ?_⟩,
    rfl, rfl, rfl, rfl, rfl, rfl, fun b tl rest i h => ?_⟩
  · simp only [classify, if_neg hrgb, if_neg hrgba]
    refine ⟨fun h => if_pos h, fun h => ?_, fun h => ?_, fun h => ?_⟩ <;> rw [h] <;> rfl
  · obtain ⟨hlen, hall, rfl⟩ := decode_cons_ok h
    have hpos := (classify b).length_range.1
    rw [List.length_drop]
    exact ⟨hlen, by omega⟩

/-- Settles O6: the range of each class follows from the order of the tests by value. -/
theorem opcodeMapByRanges : Obligations.OpcodeMapByRanges := fun b =>
  ⟨classify_eq_index_iff b, classify_eq_diff_iff b, classify_eq_luma_iff b, classify_eq_run_iff b,
    classify_eq_rgb_iff b, classify_eq_rgba_iff b⟩

/-- Settles O7: the parser evaluated on each word. -/
theorem listedWordsDecode : Obligations.ListedWordsDecode := ⟨rfl, rfl, rfl, rfl, rfl, rfl⟩

end Sys2Proof
end

section
/-! The header's big-endian words (R11, R91). -/

namespace Sys2Proof.Machine

/-- A word is the sum of the bytes of `be32`, each at its place (R11). -/
theorem toNat_eq_be32_bytes (v : Word32) :
    v.toNat = (v.extractLsb' 24 8).toNat * 2 ^ 24 + (v.extractLsb' 16 8).toNat * 2 ^ 16 +
      (v.extractLsb' 8 8).toNat * 2 ^ 8 + (v.extractLsb' 0 8).toNat := by
  have hv := v.isLt
  simp only [BitVec.extractLsb'_toNat, Nat.shiftRight_eq_div_pow]
  omega

/-- Settles O32: the bytes of each word are those of `be32`. -/
theorem headerBytesAreBigEndian : Obligations.HeaderBytesAreBigEndian := fun w h _ _ =>
  ⟨_, _, _, _, _, _, _, _, rfl, toNat_eq_be32_bytes w, toNat_eq_be32_bytes h⟩

end Sys2Proof.Machine
end

section
/-! The instruction the encoder selects, form by form (R109, R164 to R172). -/

namespace Sys2Proof.Machine

/-- What the decision order has established when it selects an instruction, by the instruction's form. -/
def Selected (e : EncState) (px : Pixel) : Instr → Prop
  | .index idx => idx = pixelHash px ∧ cacheGet e.cache idx = px
  | .rgba _ _ _ a => a ≠ e.prev.a
  | .diff dr dg db => px.a = e.prev.a ∧ diffFits dr dg db ∧
      dr = delta px.r e.prev.r ∧ dg = delta px.g e.prev.g ∧ db = delta px.b e.prev.b
  | .luma dg drg dbg => ¬ diffFits (dg + drg) dg (dg + dbg) ∧ lumaFits dg drg dbg
  | .rgb _ _ _ => px.a = e.prev.a ∧
      ¬ diffFits (delta px.r e.prev.r) (delta px.g e.prev.g) (delta px.b e.prev.b) ∧
      ¬ lumaFits (delta px.g e.prev.g) (delta px.r e.prev.r - delta px.g e.prev.g)
        (delta px.b e.prev.b - delta px.g e.prev.g)
  | .run _ => False

theorem emission_selected (e : EncState) (px : Pixel) : Selected e px (emission e px) := by
  rcases emission_cases e px with ⟨hit, h⟩ | ⟨-, halpha, h⟩ | ⟨-, halpha, dr, dg, db, rfl, rfl, rfl, hform⟩
  · rw [h]; exact ⟨rfl, hit⟩
  · rw [h]; exact halpha
  · rcases hform with ⟨hdiff, h⟩ | ⟨hdiff, hluma, h⟩ | ⟨hdiff, hluma, h⟩ <;> rw [h]
    · exact ⟨halpha, hdiff, rfl, rfl, rfl⟩
    · exact ⟨by simpa only [add_sub_cancel] using hdiff, hluma⟩
    · exact ⟨halpha, hdiff, hluma⟩

section
variable {e : EncState} {px : Pixel}

theorem selected_of_emission_eq {i : Instr} (h : emission e px = i) : Selected e px i := h ▸ emission_selected e px

/-- The conditions of `DIFF` and `LUMA` are their operand ranges (R105). -/
theorem Selected.wellFormed {i : Instr} (h : Selected e px i) : i.WellFormed := by
  cases i with
  | rgb r g b => rfl
  | rgba r g b a => rfl
  | index idx => rfl
  | diff dr dg db => exact Instr.wellFormed_diff_iff.2 h.2.1
  | luma dg drg dbg => exact Instr.wellFormed_luma_iff.2 h.2
  | run length => exact h.elim

/-- Deltas all zero with alpha unchanged mean the previous pixel again, which extends a run. -/
theorem Selected.eq_prev_of_diff_zero (h : Selected e px (.diff 0 0 0)) : px = e.prev := by
  obtain ⟨ha, -, hr, hg, hb⟩ := h
  calc px = ⟨px.r, px.g, px.b, px.a⟩ := rfl
    _ = ⟨e.prev.r, e.prev.g, e.prev.b, e.prev.a⟩ := by
      rw [delta_eq_zero hr.symm, delta_eq_zero hg.symm, delta_eq_zero hb.symm, ha]
    _ = e.prev := rfl

end

/-- Settles O37: each clause is what the decision order has established for one form. -/
theorem emissionIsCanonical : Obligations.EmissionIsCanonical := by
  intro e px hne
  refine ⟨(emission_selected e px).wellFormed, fun n h => ?_, fun i h => selected_of_emission_eq h, fun h => ?_,
    fun dg drg dbg h => ?_, fun r g b a h => ?_, fun r g b h => selected_of_emission_eq h, fun hit => if_pos hit⟩
  · exact selected_of_emission_eq h
  · exact hne (selected_of_emission_eq h).eq_prev_of_diff_zero
  · exact (selected_of_emission_eq h).1
  · exact selected_of_emission_eq h

end Sys2Proof.Machine
end

section
/-! What each part of the synchroniser answers, by the check it makes (R134 to R139). `lenCheck_cases` to
`chCheck_cases` say what follows from an answer; the lemmas here say that there is one. -/

namespace Sys2Proof.Machine

section
variable {d t : DecState}

theorem lenCheck_of_lt (h : d.inLen < 22) : d.lenCheck = .next (d.raise .tooSmall) := if_pos h

theorem lenCheck_of_le (h : 22 ≤ d.inLen) : d.lenCheck = .next d := if_neg (Nat.not_lt.2 h)

theorem magicCheck_of_eq (h : d.inMem.readBytes 0 4 = some Config.magic) : d.magicCheck = .next d := by
  simp [DecState.magicCheck, h]

theorem magicCheck_of_ne {bs : List Byte} (h : d.inMem.readBytes 0 4 = some bs) (hne : bs ≠ Config.magic) :
    d.magicCheck = .next (d.raise .magic) := by
  simp [DecState.magicCheck, h, hne]

theorem chCheck_of_ok (h : channelsOk d.channels) : d.chCheck = .next d := if_pos h

theorem chCheck_of_not_ok (h : ¬ channelsOk d.channels) : d.chCheck = .next (d.raise .channels) := if_neg h

/-! ### The header -/

theorem hdrParse_eq {w h : List Byte} {c cs : Byte} (hw : d.inMem.readBytes 4 4 = some w)
    (hh : d.inMem.readBytes 8 4 = some h) (hc : d.inMem.read 12 = some c) (hcs : d.inMem.read 13 = some cs) :
    d.hdrParse = .next { d with
      width := BitVec.ofNat 32 (fromBe w)
      height := BitVec.ofNat 32 (fromBe h)
      channels := c
      colorspace := cs
      outLen := c.toNat * fromBe w * fromBe h } := by
  simp [DecState.hdrParse, hw, hh, hc, hcs]

theorem fromBe_four (a b c e : Byte) :
    fromBe [a, b, c, e] = a.toNat * 2 ^ 24 + b.toNat * 2 ^ 16 + c.toNat * 2 ^ 8 + e.toNat := by
  simp only [fromBe, List.foldl]
  omega

/-- Four bytes as a number are a word of 32 bits, without reduction (R11). -/
theorem toNat_ofNat_fromBe {w : List Byte} (h : w.length = 4) : (BitVec.ofNat 32 (fromBe w)).toNat = fromBe w :=
  Nat.mod_eq_of_lt (fromBe_lt h)

/-! ### The trailer -/

section
variable {m : Memory} {n a p : Nat}

theorem scanFrom_found (h : scanFrom m n a = .found p) :
    a ≤ p ∧ p < a + n ∧ m.readBytes p 8 = some Config.trailer ∧
      ∀ q, a ≤ q → q < p → m.readBytes q 8 ≠ some Config.trailer := by
  simpa only [h] using scanFrom_spec m n a

theorem scanFrom_notFound (h : scanFrom m n a = .notFound) {q : Nat} (hlo : a ≤ q) (hhi : q < a + n) :
    m.readBytes q 8 ≠ some Config.trailer := by
  have spec := scanFrom_spec m n a
  simp only [h] at spec
  obtain ⟨w, hw, hne⟩ := spec q hlo hhi
  simpa [hw] using hne

theorem scanFrom_unplaced (h : scanFrom m n a = .unplaced) :
    ∃ q, a ≤ q ∧ q < a + n ∧ m.readBytes q 8 = none := by
  simpa only [h] using scanFrom_spec m n a

end

/-- Every window of the scan ends within `DEC_INLEN`, so on a placed input each can be read. -/
theorem trlScan_completes (h : d.inMem.Placed d.inLen) : ∃ t, d.trlScan = .next t := by
  unfold DecState.trlScan
  cases hs : scanFrom d.inMem (d.inLen - 21) 14 with
  | found p => exact ⟨_, rfl⟩
  | notFound => exact ⟨_, rfl⟩
  | unplaced =>
    obtain ⟨q, hlo, hhi, hnone⟩ := scanFrom_unplaced hs
    obtain ⟨bs, hbs⟩ := Memory.readBytes_isSome (m := d.inMem) (a := q) (n := 8) fun x _ hx => h x (by omega)
    rw [hbs] at hnone
    cases hnone

/-- What the scan found is the trailer, which the check then accepts (R138, D10). -/
theorem trlCheck_of_trlScan (h : d.trlScan = .next t) : t.trlCheck = .next t := by
  rcases trlScan_cases h with ⟨p, hs, rfl⟩ | ⟨-, rfl⟩
  · obtain ⟨-, -, htrailer, -⟩ := scanFrom_found hs
    have hone : fromBe Config.trailer = 1 := by decide
    simp [DecState.trlCheck, htrailer, hone]
  · rfl

end

/-- Settles O26: the ten bytes are the two words and the two bytes that the parse reads. -/
theorem headerIsParsedBigEndian : Obligations.HeaderIsParsedBigEndian := by
  intro d w3 w2 w1 w0 h3 h2 h1 h0 c cs hread
  have hw : d.inMem.readBytes 4 4 = some [w3, w2, w1, w0] :=
    Memory.readBytes_part hread (k := 0) (l := 4) (by decide)
  have hh : d.inMem.readBytes 8 4 = some [h3, h2, h1, h0] :=
    Memory.readBytes_part hread (k := 4) (l := 4) (by decide)
  have hc : d.inMem.read 12 = some c := Memory.read_of_readBytes hread (i := 8) (by decide)
  have hcs : d.inMem.read 13 = some cs := Memory.read_of_readBytes hread (i := 9) (by decide)
  have hwn := toNat_ofNat_fromBe (w := [w3, w2, w1, w0]) rfl
  have hhn := toNat_ofNat_fromBe (w := [h3, h2, h1, h0]) rfl
  refine ⟨_, hdrParse_eq hw hh hc hcs, ?_, ?_, rfl, rfl, ?_, rfl⟩
  · exact hwn.trans (fromBe_four w3 w2 w1 w0)
  · exact hhn.trans (fromBe_four h3 h2 h1 h0)
  · rw [hwn, hhn]

/-- Settles O28: with every window placed the scan ends by a match or without one. -/
theorem trailerScanCompletes : Obligations.TrailerScanCompletes := fun _ h => trlScan_completes h

/-- Settles O27: the scan's windows begin at 14 to `DEC_INLEN - 8`. -/
theorem trailerScanTakesFirstMatch : Obligations.TrailerScanTakesFirstMatch := by
  intro d d' _ _ h
  rcases trlScan_cases h with ⟨p, hs, rfl⟩ | ⟨hs, rfl⟩
  · obtain ⟨hlo, hhi, hmatch, hfirst⟩ := scanFrom_found hs
    refine ⟨rfl, fun _ => ⟨hlo, ?_, hmatch, hfirst⟩, fun hf => by cases hf⟩
    show p + 8 ≤ d.inLen
    omega
  · exact ⟨rfl, (fun hf => by cases hf), fun _ => ⟨rfl, fun q hlo hhi => scanFrom_notFound hs hlo (by omega)⟩⟩

end Sys2Proof.Machine
end

section
/-! The synchroniser and an accepted `START_DEC` as a whole: which check ends it, what it leaves (R133, R140, R200). -/

namespace Sys2Proof.Machine

theorem Memory.placed_of_readBytes {m : Memory} {n : Nat} {bs : List Byte} (h : m.readBytes 0 n = some bs) :
    m.Placed n := by
  intro a ha
  have hread := Memory.read_of_readBytes h ha
  rw [Nat.zero_add] at hread
  simp [hread]

section
variable {d u t : DecState} {bs : List Byte}

/-! ### The order of the checks -/

theorem sync_of_short (hl : d.inLen < 22) : d.sync = .next (d.raise .tooSmall) := by
  simp [DecState.sync, lenCheck_of_lt hl]

theorem sync_of_bad_magic (hb : d.status = .busy) (hl : 22 ≤ d.inLen) (hr : d.inMem.readBytes 0 4 = some bs)
    (hne : bs ≠ Config.magic) : d.sync = .next (d.raise .magic) := by
  simp [DecState.sync, lenCheck_of_le hl, hb, magicCheck_of_ne hr hne]

/-- Behind length and magic the channel check decides: parse and scan only write, the trailer check passes. -/
theorem sync_of_magic (hb : d.status = .busy) (hl : 22 ≤ d.inLen)
    (hm : d.inMem.readBytes 0 4 = some Config.magic) (hu : d.hdrParse = .next u) (hbu : u.status = .busy)
    (ht : u.trlScan = .next t) (hbt : t.status = .busy) : d.sync = t.chCheck := by
  simp [DecState.sync, lenCheck_of_le hl, hb, magicCheck_of_eq hm, hu, hbu, ht, hbt, trlCheck_of_trlScan ht]

theorem trlScan_frame (h : d.trlScan = .next t) :
    t.channels = d.channels ∧ t.status = d.status ∧ t.err = d.err := by
  rcases trlScan_cases h with ⟨p, -, rfl⟩ | ⟨-, rfl⟩
  · exact ⟨rfl, rfl, rfl⟩
  · exact ⟨rfl, rfl, rfl⟩

theorem hdrParse_completes {n : Nat} (h : d.inMem.readBytes 0 n = some bs) (hn : 14 ≤ n) :
    ∃ u, d.hdrParse = .next u ∧ u.channels = bs.getD 12 0 ∧ u.status = d.status ∧ u.err = d.err ∧
      u.inLen = d.inLen ∧ u.inMem = d.inMem := by
  have hw := Memory.readBytes_part h (k := 4) (l := 4) (by omega)
  have hh := Memory.readBytes_part h (k := 8) (l := 4) (by omega)
  have hc := Memory.read_of_readBytes h (i := 12) (by omega)
  have hcs := Memory.read_of_readBytes h (i := 13) (by omega)
  rw [Nat.zero_add] at hw hh hc hcs
  exact ⟨_, hdrParse_eq hw hh hc hcs, rfl, rfl, rfl, rfl, rfl⟩

/-- Behind the magic, all that is left of the synchroniser is the check of byte 12. -/
theorem sync_eq_chCheck (hb : d.status = .busy) (hl : 22 ≤ d.inLen) (h : d.inMem.readBytes 0 d.inLen = some bs)
    (hm : d.inMem.readBytes 0 4 = some Config.magic) :
    ∃ t : DecState, d.sync = t.chCheck ∧ t.channels = bs.getD 12 0 ∧ t.status = .busy ∧ t.err = d.err := by
  obtain ⟨u, hu, huc, hus, hue, hulen, humem⟩ := hdrParse_completes h (by omega)
  obtain ⟨t, ht⟩ := trlScan_completes (d := u) (by rw [hulen, humem]; exact Memory.placed_of_readBytes h)
  obtain ⟨htc, hts, hte⟩ := trlScan_frame ht
  have hbu : u.status = .busy := hus.trans hb
  have hbt : t.status = .busy := hts.trans hbu
  exact ⟨t, sync_of_magic hb hl hm hu hbu ht hbt, htc.trans huc, hbt, hte.trans hue⟩

/-- What a decoder shows after the checks on the input `bs`: the first that fails, or BUSY without a cause (R133). -/
def ReportsFirstViolation (bs : List Byte) (t : DecState) : Prop :=
  if bs.length < 22 then t.status = .error ∧ t.err = some .tooSmall
  else if bs.take 4 ≠ Config.magic then t.status = .error ∧ t.err = some .magic
  else if bs.getD 12 0 ≠ 3 ∧ bs.getD 12 0 ≠ 4 then t.status = .error ∧ t.err = some .channels
  else t.status = .busy ∧ t.err = none

theorem sync_reports (hb : d.status = .busy) (he : d.err = none) (h : d.inMem.readBytes 0 d.inLen = some bs) :
    ∃ t, d.sync = .next t ∧ ReportsFirstViolation bs t := by
  have hlen := Memory.length_of_readBytes h
  unfold ReportsFirstViolation
  by_cases hl : bs.length < 22
  · refine ⟨_, sync_of_short (hlen ▸ hl), ?_⟩
    rw [if_pos hl]
    exact ⟨rfl, rfl⟩
  have hl' : 22 ≤ d.inLen := by omega
  have hfour : d.inMem.readBytes 0 4 = some (bs.take 4) := Memory.readBytes_part h (k := 0) (by omega)
  by_cases hm : bs.take 4 = Config.magic
  · obtain ⟨t, hsync, hc, hbt, het⟩ := sync_eq_chCheck hb hl' h (hm ▸ hfour)
    by_cases hok : channelsOk t.channels
    · refine ⟨t, hsync.trans (chCheck_of_ok hok), ?_⟩
      rw [if_neg hl, if_neg (not_not.2 hm), if_neg (by rw [← hc]; tauto)]
      exact ⟨hbt, het.trans he⟩
    · refine ⟨_, hsync.trans (chCheck_of_not_ok hok), ?_⟩
      rw [if_neg hl, if_neg (not_not.2 hm), if_pos (by rw [← hc]; tauto)]
      exact ⟨rfl, rfl⟩
  · refine ⟨_, sync_of_bad_magic hb hl' hfour hm, ?_⟩
    rw [if_neg hl, if_pos hm]
    exact ⟨rfl, rfl⟩

/-! ### An accepted start -/

/-- What raised is the start's answer, what passed gets its working registers set (R281). -/
theorem decStart_of_sync (h : ({ d with status := .busy, err := none } : DecState).sync = .next t) :
    d.start = .next (if t.status = .busy then t.init else t) := by
  unfold DecState.start
  by_cases hb : t.status = .busy <;> simp [h, thenBusy, hb]

theorem decStart_of_short (hl : d.inLen < 22) :
    d.start = .next { d with status := .error, err := some .tooSmall } :=
  decStart_of_sync (sync_of_short hl)

theorem decStart_reports (h : d.inMem.readBytes 0 d.inLen = some bs) :
    ∃ t, d.start = .next t ∧ ReportsFirstViolation bs t := by
  obtain ⟨t, hsync, hreport⟩ := sync_reports (d := { d with status := .busy, err := none }) rfl rfl h
  refine ⟨_, decStart_of_sync hsync, ?_⟩
  split
  · exact hreport
  · exact hreport

theorem decStart_frame (h : d.start = .next t) :
    t.inMem = d.inMem ∧ t.outMem = d.outMem ∧ t.inLen = d.inLen := by
  rcases decStart_cases h with ⟨u, hu, rfl⟩ | ⟨hw, -⟩
  · exact ⟨hu.writes.inMem, hu.writes.outMem, hu.writes.inLen⟩
  · exact ⟨hw.inMem, hw.outMem, hw.inLen⟩

theorem step_startDec {s : State} {cs : List HostCmd} (ha : nextAgent s = .host) (hh : s.host = .startDec :: cs)
    (hb : s.dec.status ≠ .busy) :
    step s = mapOutcome (fun d => { popTurn s with host := cs, dec := d }) s.dec.start :=
  (step_host ha hh).trans (if_neg hb)

end

/-- Settles O24: the length check is the first and raises without a read. -/
theorem shortStreamIsRejected : Obligations.ShortStreamIsRejected := by
  refine ⟨fun s cs ha hh hb hl => ?_, fun d => lenCheck_of_le⟩
  rw [step_startDec ha hh hb, decStart_of_short hl]
  rfl

/-- Settles O25: the host's step delivers the start, which reports by the order of the checks and keeps its frame. -/
theorem synchroniserReportsFirstViolation : Obligations.SynchroniserReportsFirstViolation := by
  intro s cs bs ha hh hb hread
  obtain ⟨t, ht, hreport⟩ := decStart_reports hread
  obtain ⟨hin, hout, hlen⟩ := decStart_frame ht
  refine ⟨{ popTurn s with host := cs, dec := t }, ?_, rfl, rfl, hin, hout, hlen, hreport⟩
  rw [step_startDec ha hh hb, ht]
  rfl

/-- Settles O29: a start that leaves DEC BUSY passed the synchroniser, and `init` set the working registers. -/
theorem synchroniserLeavesPassReady : Obligations.SynchroniserLeavesPassReady := by
  intro s t cs ha hh hb hstep hbusy
  rw [step_startDec ha hh hb] at hstep
  obtain ⟨d, hd, rfl⟩ := mapOutcome_eq_next.1 hstep
  rcases decStart_cases hd with ⟨u, hu, rfl⟩ | ⟨-, herror, -⟩
  · exact ⟨hu.channels, hu.pend.1, hu.pend.2.trans hu.writes.inLen.ge, rfl, rfl, rfl, cacheGet_empty,
      hu.writes.outMem, hu.writes.inMem, rfl⟩
  · cases herror.symm.trans hbusy

/-! ### The trailer error -/

theorem decMove_keeps_err_ne_trailer {s t : State} (h : s.dec.err ≠ some .trailer) (hm : decMove s = .next t) :
    t.dec.err ≠ some .trailer := by
  rcases decMove_cases hm with ⟨-, rfl⟩ | ⟨-, -, rfl⟩ | ⟨-, -, b0, -, ⟨-, rfl⟩ | ⟨-, k, px, rfl, -⟩⟩
  · exact h
  · rcases decFinish_cases s.dec with ⟨-, hf⟩ | ⟨-, hf⟩ <;> rw [hf]
    · simp
    · exact h
  · exact h
  · simpa using h

theorem hostExec_keeps_err_ne_trailer {c : HostCmd} {s t : State} (h : s.dec.err ≠ some .trailer)
    (hx : hostExec c s = .next t) : t.dec.err ≠ some .trailer := by
  rcases (hostExec_cases hx).2 with hd | hd | ⟨-, hd | ⟨n, m, hd, -⟩⟩
  · exact hd ▸ h
  · exact hd ▸ DecState.inv_reset.err_ne_trailer
  · exact (DecState.inv_start hd).err_ne_trailer
  · exact hd ▸ h

/-- Settles O30: DEC's move raises only `insufficient`, a start none but the three causes of `decStart_cases`. -/
theorem trailerErrorIsNeverRaised : Obligations.TrailerErrorIsNeverRaised := by
  intro s t h hstep
  rcases step_cases hstep with ⟨-, e, -, rfl⟩ | ⟨-, hm⟩ | ⟨-, ⟨-, rfl⟩ | ⟨c, cs, -, hx⟩⟩
  · exact h
  · exact decMove_keeps_err_ne_trailer (s := popTurn s) h hm
  · exact h
  · exact hostExec_keeps_err_ne_trailer (s := { popTurn s with host := cs }) h hx

end Sys2Proof.Machine
end

section
/-! The encoder's pixel fetch and its move, one equation per branch of R160 and R164, with the bytes in the words of
R177. -/

namespace Sys2Proof.Machine

section
variable {e : EncState} {px : Pixel}

/-! ### The pixel fetch (R162) -/

theorem fetchPixel_of_reads {r g b a : Byte} (hr : e.inMem.read (e.pi * e.channels.toNat) = some r)
    (hg : e.inMem.read (e.pi * e.channels.toNat + 1) = some g)
    (hb : e.inMem.read (e.pi * e.channels.toNat + 2) = some b)
    (ha : e.channels = 4 → e.inMem.read (e.pi * e.channels.toNat + 3) = some a) :
    fetchPixel e = some ⟨r, g, b, if e.channels = 4 then a else 255⟩ := by
  simp only [fetchPixel, hr, hg, hb]
  split
  · next h4 => rw [ha h4]
  · rfl

/-- A source of three channels has opaque pixels only (R162). -/
theorem fetchPixel_opaque (h : fetchPixel e = some px) (h3 : e.channels = 3) : px.a = 255 := by
  have h4 : e.channels ≠ 4 := by rw [h3]; decide
  simp only [fetchPixel, if_neg h4] at h
  split at h
  · cases h; rfl
  · cases h

/-! ### The byte stream writer (R176) -/

/-- Whatever else a step changes, these two registers say what it appended (R176). -/
theorem appended_of_writeBytes {bs : List Byte} {t : EncState} (hwp : t.wp = e.wp + bs.length)
    (hout : t.outMem = e.outMem.writeBytes e.wp bs) : Appended bs e t where
  wp := hwp
  bytes := hout ▸ Memory.readBytes_writeBytes
  frame _ h := hout ▸ Memory.read_writeBytes_outside h

/-! ### One pixel (R164) -/

/-- A pixel that differs: the open run's `RUN` byte, if any, then the bytes of the instruction selected. -/
theorem pixelStep_of_ne (h : px ≠ e.prev) :
    e.pixelStep px =
      { ((e.append (Whole.runBytes e.run ++ Whole.emitBytes px e.prev e.cache)).update px) with run := 0 } := by
  rw [← runBytes_eq, ← encode_emission]
  rcases pixelStep_cases px e with ⟨heq, -⟩ | ⟨heq, -⟩ | ⟨-, hrun, hstep⟩ | ⟨-, hrun, hstep⟩
  · exact absurd heq h
  · exact absurd heq h
  · rw [hstep, if_pos hrun]
  · rw [hstep, if_neg (by omega), ← hrun]
    rfl

theorem pixelStep_prev_of_eq (h : e.run + 1 ≠ 62) : e.pixelStep e.prev = { e with run := e.run + 1 } := by
  simp [EncState.pixelStep, EncState.runExtend, h]

theorem pixelStep_prev_of_full (h : e.run + 1 = 62) :
    e.pixelStep e.prev = { (e.append [0xFD]) with run := 0 } := by
  simp only [EncState.pixelStep, EncState.runExtend, h, if_true]
  rfl

/-! ### One move (R160) -/

theorem encMove_pixel (hb : e.status = .busy) (hm : e.pi < e.quota) (hf : fetchPixel e = some px) :
    e.move = .next { (e.pixelStep px) with pi := e.pi + 1 } := by
  simp only [EncState.move, if_pos hb, if_pos hm, hf]

theorem encMove_finish (hb : e.status = .busy) (hm : e.quota ≤ e.pi) : e.move = .next e.finish := by
  rw [EncState.move, if_pos hb, if_neg (Nat.not_lt.2 hm)]

/-- The end of the pass appends the open run's `RUN` byte, if any, and the trailer (R174, R175). -/
theorem encFinish_eq_append (e : EncState) :
    e.finish = { (e.append (Whole.runBytes e.run ++ Config.trailer)) with
      run := 0, outLen := e.wp + (Whole.runBytes e.run ++ Config.trailer).length, status := .done } := by
  rw [encFinish_eq, runBytes_eq]

/-! ### The start command (R160, R161) -/

theorem encStart_of_short (h : e.inLen < e.channels.toNat * e.width.toNat * e.height.toNat) :
    e.start = { e with status := .error, err := some .size } := by
  rcases encStart_cases e with ⟨-, hs⟩ | ⟨hle, -⟩ | ⟨hle, -⟩
  · exact hs
  · omega
  · omega

theorem encStart_of_bad_channels (h : e.channels.toNat * e.width.toNat * e.height.toNat ≤ e.inLen)
    (hc : ¬ channelsOk e.channels) : e.start = { e with status := .error, err := some .channels } := by
  rcases encStart_cases e with ⟨hlt, -⟩ | ⟨-, -, hs⟩ | ⟨-, hok, -⟩
  · omega
  · exact hs
  · exact absurd hok hc

/-- What passes both checks: working registers at their start values, then the header (R130, R281). -/
theorem encStart_of_ok (h : e.channels.toNat * e.width.toNat * e.height.toNat ≤ e.inLen)
    (hc : channelsOk e.channels) :
    e.start = ({ e with status := .busy, err := none } : EncState).init.append
      (Whole.header e.width e.height e.channels e.colorspace) := by
  rcases encStart_cases e with ⟨hlt, -⟩ | ⟨-, hbad, -⟩ | ⟨-, -, hs⟩
  · omega
  · exact absurd hc hbad
  · exact hs

end

theorem step_startEnc {s : State} {cs : List HostCmd} (ha : nextAgent s = .host) (hh : s.host = .startEnc :: cs)
    (hb : s.enc.status ≠ .busy) : step s = .next { popTurn s with host := cs, enc := s.enc.start } :=
  (step_host ha hh).trans (if_neg hb)

theorem step_encMove {s : State} {e : EncState} (ha : nextAgent s = .enc) (hm : s.enc.move = .next e) :
    step s = .next { popTurn s with enc := e } := by
  rw [step_enc ha, hm]
  rfl

theorem channelsOk_iff_not {c : Byte} : ¬ channelsOk c ↔ c ≠ 3 ∧ c ≠ 4 := not_or

/-! ### The statements on single steps -/

/-- Settles O33: the bytes read together are the reads of the fetch. -/
theorem pixelFetchDefaultsAlpha : Obligations.PixelFetchDefaultsAlpha := by
  intro e r g b a
  constructor
  · intro hc h
    have hbase : e.pi * e.channels.toNat = e.pi * 4 := by rw [hc]; rfl
    have read {i : Nat} (hi : i < 4) := Memory.read_of_readBytes h hi
    rw [← hbase] at read
    rw [fetchPixel_of_reads (read (i := 0) (by decide)) (read (i := 1) (by decide)) (read (i := 2) (by decide))
      (fun _ => read (i := 3) (by decide)), if_pos hc]
    rfl
  · intro hc h
    have hbase : e.pi * e.channels.toNat = e.pi * 3 := by rw [hc]; rfl
    have h4 : e.channels ≠ 4 := by rw [hc]; decide
    have read {i : Nat} (hi : i < 3) := Memory.read_of_readBytes h hi
    rw [← hbase] at read
    rw [fetchPixel_of_reads (a := 255) (read (i := 0) (by decide)) (read (i := 1) (by decide))
      (read (i := 2) (by decide)) (fun h => absurd h h4), if_neg h4]
    rfl

/-- Settles O31: the host's step delivers the start, which has one answer per outcome of the checks in their order. -/
theorem startEncChecksThenWritesHeader : Obligations.StartEncChecksThenWritesHeader := by
  intro s cs ha hh hb
  refine ⟨_, step_startEnc ha hh hb, rfl, rfl, ?_⟩
  by_cases hsize : s.enc.inLen < s.enc.channels.toNat * s.enc.width.toNat * s.enc.height.toNat
  · simp only [if_pos hsize, encStart_of_short hsize, and_self]
  rw [if_neg hsize]
  rw [not_lt] at hsize
  by_cases hc : channelsOk s.enc.channels
  · rw [if_neg (by rwa [← channelsOk_iff_not, not_not])]
    simp only [encStart_of_ok hsize hc]
    exact ⟨rfl, rfl, rfl, rfl, cacheGet_empty, rfl, rfl, rfl, rfl, rfl, rfl, rfl, rfl,
      Memory.readBytes_writeBytes, fun a h => Memory.read_writeBytes_outside (.inr h)⟩
  · simp only [if_pos (channelsOk_iff_not.1 hc), encStart_of_bad_channels hsize hc, and_self]

/-- Settles O34: the two branches of the run counter. -/
theorem equalPixelExtendsRun : Obligations.EqualPixelExtendsRun := by
  rintro s px ha hb hm hf rfl
  have hstep := step_encMove ha (encMove_pixel hb hm hf)
  constructor
  · intro h
    rw [hstep, pixelStep_prev_of_eq h]
    rfl
  · intro h
    rw [pixelStep_prev_of_full h] at hstep
    exact ⟨_, hstep, appended_of_writeBytes rfl rfl, rfl⟩

/-- Settles O35: the step is one append and the update (`pixelStep_of_ne`). -/
theorem differentPixelEmitsInstruction : Obligations.DifferentPixelEmitsInstruction := by
  intro s px ha hb hm hf hne
  have hstep := step_encMove ha (encMove_pixel hb hm hf)
  rw [pixelStep_of_ne hne] at hstep
  exact ⟨_, hstep, appended_of_writeBytes rfl rfl, cacheGet_store_same _ _, fun i hi => cacheGet_store_other hi, rfl⟩

/-- Settles O36: the end of the pass is one append (`encFinish_eq_append`). -/
theorem encoderFinishFlushesAndTerminates : Obligations.EncoderFinishFlushesAndTerminates := by
  intro s ha hb hm
  have hstep := step_encMove ha (encMove_finish hb hm)
  rw [encFinish_eq_append] at hstep
  exact ⟨_, hstep, appended_of_writeBytes rfl rfl, rfl⟩

/-- Settles O38: after `INDEX i` the previous pixel stands in slot `i`, so another `INDEX i` would stand for it. -/
theorem noIndexRepeatsItsSlot : Obligations.NoIndexRepeatsItsSlot := by
  intro e px px' i hne hemit hne' hemit'
  obtain ⟨hi, -⟩ := selected_of_emission_eq hemit
  obtain ⟨-, hit⟩ := selected_of_emission_eq hemit'
  rw [pixelStep_of_ne hne] at hit hne'
  have hslot : cacheGet (cacheStore e.cache px) i = px := hi ▸ cacheGet_store_same e.cache px
  exact hne' (hit.symm.trans hslot)

end Sys2Proof.Machine
end

section
/-! The pass of the one-function form R177: its equations, its induction, and what every pixel keeps (R179, R180). -/

namespace Sys2Proof.Machine

/-! ### The bytes of one instruction (R164 to R172) -/

/-- An encoder engine that holds the two registers the decision order reads. -/
def encoderWith (prev : Pixel) (cache : Cache) : EncState := { EncState.reset with prev := prev, cache := cache }

theorem emitBytes_eq_encode (px prev : Pixel) (cache : Cache) :
    Whole.emitBytes px prev cache = encode (emission (encoderWith prev cache) px) :=
  (encode_emission (encoderWith prev cache) px).symm

/-- Only `RGBA` has five bytes, and it is selected only where alpha changes: never with three channels (R179 (c)). -/
theorem emitBytes_length_le {c : Byte} (hc : channelsOk c) {px prev : Pixel} (ha : c = 3 → px.a = prev.a)
    (cache : Cache) : (Whole.emitBytes px prev cache).length ≤ c.toNat + 1 := by
  rw [emitBytes_eq_encode, encode_length]
  rcases hc with rfl | rfl
  · rcases emission_cases (encoderWith prev cache) px with ⟨-, h⟩ | ⟨-, hne, -⟩ | ⟨-, -, dr, dg, db, -, -, -, hform⟩
    · rw [h]; simp [Instr.length]
    · exact absurd (ha rfl) hne
    · rcases hform with ⟨-, h⟩ | ⟨-, -, h⟩ | ⟨-, -, h⟩ <;> rw [h] <;> simp [Instr.length]
  · exact (Instr.length_range _).2

theorem runBytes_length (run : Nat) : (Whole.runBytes run).length = if 0 < run then 1 else 0 := by
  unfold Whole.runBytes
  split <;> rfl

/-! ### One pixel of the pass -/

section
variable {p : Whole.EncPass} {px : Pixel}

theorem encodePixel_prev_of_eq (h : p.run + 1 ≠ 62) : Whole.encodePixel p.prev p = { p with run := p.run + 1 } := by
  simp [Whole.encodePixel, h]

theorem encodePixel_prev_of_full (h : p.run + 1 = 62) :
    Whole.encodePixel p.prev p = { p with run := 0, out := p.out ++ [0xFD] } := by
  simp [Whole.encodePixel, h]

theorem encodePixel_of_ne (h : px ≠ p.prev) :
    Whole.encodePixel px p =
      { prev := px, cache := cacheStore p.cache px, run := 0
        out := p.out ++ (Whole.runBytes p.run ++ Whole.emitBytes px p.prev p.cache) } := by
  rw [← List.append_assoc]
  exact if_neg h

end

/-! ### The whole pass -/

theorem pixelAt_opaque (pix : List Byte) {c : Byte} (h : c = 3) (i : Nat) : (Whole.pixelAt pix c i).a = 255 := by
  subst h; rfl

/-- What every pixel keeps, counted by the pixels consumed, holds after the pass. -/
theorem encodeFrom_induction {motive : Nat → Whole.EncPass → Prop} {pix : List Byte} {c : Byte}
    (pixel : ∀ k px p, (c = 3 → px.a = 255) → motive k p → motive (k + 1) (Whole.encodePixel px p))
    {k : Nat} {p : Whole.EncPass} (start : motive k p) (n i : Nat) :
    motive (k + n) (Whole.encodeFrom pix c n i p) := by
  induction n generalizing k i p with
  | zero => exact start
  | succ n ih =>
    have := ih (pixel k (Whole.pixelAt pix c i) p (pixelAt_opaque pix · i) start) (i + 1)
    rwa [Nat.add_right_comm] at this

/-- The variables of the pass before its first pixel (R177). -/
def passStart (w h : Word32) (c cs : Byte) : Whole.EncPass where
  prev := Config.prevInit
  cache := emptyCache
  run := 0
  out := Whole.header w h c cs

/-- The stream after the last pixel: the open run flushed, then the trailer (R174, R175). -/
def passStream (p : Whole.EncPass) : List Byte := p.out ++ (Whole.runBytes p.run ++ Config.trailer)

section
variable {pix : List Byte} {w h : Word32} {c : Byte} (cs : Byte)

theorem wholeEncode_of_short (hl : pix.length < c.toNat * w.toNat * h.toNat) :
    Whole.encode pix w h c cs = .error .size := if_pos hl

theorem wholeEncode_of_bad_channels (hl : c.toNat * w.toNat * h.toNat ≤ pix.length) (hc : ¬ channelsOk c) :
    Whole.encode pix w h c cs = .error .channels := by
  rw [Whole.encode, if_neg (Nat.not_lt.2 hl), if_pos (channelsOk_iff_not.1 hc)]

theorem wholeEncode_of_ok (hl : c.toNat * w.toNat * h.toNat ≤ pix.length) (hc : channelsOk c) :
    Whole.encode pix w h c cs =
      .ok (passStream (Whole.encodeFrom pix c (w.toNat * h.toNat) 0 (passStart w h c cs))) := by
  rw [Whole.encode, if_neg (Nat.not_lt.2 hl), if_neg (by rwa [← channelsOk_iff_not, not_not]), passStream,
    ← List.append_assoc]
  rfl

variable {cs}

/-- A stream is answered only behind both checks, and it is the pass's. -/
theorem of_wholeEncode_eq_ok {out : List Byte} (he : Whole.encode pix w h c cs = .ok out) :
    channelsOk c ∧ out = passStream (Whole.encodeFrom pix c (w.toNat * h.toNat) 0 (passStart w h c cs)) := by
  by_cases hl : pix.length < c.toNat * w.toNat * h.toNat
  · cases (wholeEncode_of_short cs hl).symm.trans he
  rw [not_lt] at hl
  by_cases hc : channelsOk c
  · cases (wholeEncode_of_ok cs hl hc).symm.trans he
    exact ⟨hc, rfl⟩
  · cases (wholeEncode_of_bad_channels cs hl hc).symm.trans he

end

/-! ### What every pixel keeps -/

/-- The variables of the pass after `n` pixels of `c` channels (R179 (a), (c), (f), R180). -/
structure PassInv (c : Byte) (n : Nat) (p : Whole.EncPass) : Prop where
  run_le : p.run ≤ 61
  size : 14 ≤ p.out.length ∧ p.out.length + (if 0 < p.run then 1 else 0) ≤ 14 + n * (c.toNat + 1)
  opaque_prev : c = 3 → p.prev.a = 255
  opaque_cache : c = 3 → ∀ i, cacheGet p.cache i = Config.empty ∨ (cacheGet p.cache i).a = 255
  prev_cached : p.prev = Config.prevInit ∨ cacheGet p.cache (pixelHash p.prev) = p.prev

theorem passInv_start (w h : Word32) (c cs : Byte) : PassInv c 0 (passStart w h c cs) where
  run_le := Nat.zero_le _
  size := ⟨le_rfl, by rw [Nat.zero_mul]; exact le_rfl⟩
  opaque_prev _ := rfl
  opaque_cache _ i := .inl (cacheGet_empty i)
  prev_cached := .inl rfl

section
variable {c : Byte} {n : Nat} {p : Whole.EncPass}

/-- A pixel that repeats costs a byte only when it is the first of its run: an open run has its byte counted. -/
theorem PassInv.extend (hp : PassInv c n p) : PassInv c (n + 1) (Whole.encodePixel p.prev p) := by
  obtain ⟨hlo, hhi⟩ := hp.size
  have hn : (n + 1) * (c.toNat + 1) = n * (c.toNat + 1) + (c.toNat + 1) := Nat.succ_mul n _
  by_cases hfull : p.run + 1 = 62
  · rw [encodePixel_prev_of_full hfull]
    refine { hp with run_le := Nat.zero_le _, size := ?_ }
    rw [if_pos (by omega)] at hhi
    simp only [List.length_append, List.length_singleton, lt_irrefl, if_false]
    omega
  · rw [encodePixel_prev_of_eq hfull]
    refine { hp with run_le := ?_, size := ⟨hlo, ?_⟩ }
    · have := hp.run_le
      show p.run + 1 ≤ 61
      omega
    · show p.out.length + (if 0 < p.run + 1 then 1 else 0) ≤ _
      rw [if_pos (by omega)]
      split at hhi <;> omega

theorem PassInv.emit (hp : PassInv c n p) (hc : channelsOk c) {px : Pixel} (ha : c = 3 → px.a = 255)
    (hne : px ≠ p.prev) : PassInv c (n + 1) (Whole.encodePixel px p) := by
  rw [encodePixel_of_ne hne]
  exact {
    run_le := Nat.zero_le _
    size := by
      obtain ⟨hlo, hhi⟩ := hp.size
      have hn : (n + 1) * (c.toNat + 1) = n * (c.toNat + 1) + (c.toNat + 1) := Nat.succ_mul n _
      have hemit := emitBytes_length_le hc (fun h3 => (ha h3).trans (hp.opaque_prev h3).symm) p.cache
      simp only [List.length_append, runBytes_length, lt_irrefl, if_false]
      omega
    opaque_prev := ha
    opaque_cache := fun h3 i => by
      show cacheGet (cacheStore p.cache px) i = _ ∨ (cacheGet (cacheStore p.cache px) i).a = 255
      rw [cacheGet_store]
      split
      · exact .inr (ha h3)
      · exact hp.opaque_cache h3 i
    prev_cached := .inr (cacheGet_store_same p.cache px) }

theorem PassInv.encodePixel (hp : PassInv c n p) (hc : channelsOk c) {px : Pixel} (ha : c = 3 → px.a = 255) :
    PassInv c (n + 1) (Whole.encodePixel px p) := by
  by_cases heq : px = p.prev
  · exact heq ▸ hp.extend
  · exact hp.emit hc ha heq

/-- The last run and the trailer are at most nine bytes more, the run's byte being counted already. -/
theorem PassInv.passStream_length (hp : PassInv c n p) :
    22 ≤ (passStream p).length ∧ (passStream p).length ≤ 22 + n * (c.toNat + 1) := by
  obtain ⟨hlo, hhi⟩ := hp.size
  have ht : Config.trailer.length = 8 := rfl
  simp only [passStream, List.length_append, runBytes_length, ht]
  omega

end

/-- Settles O54: the invariant of the pass, after all its pixels. -/
theorem encodedSizeIsBounded : Obligations.EncodedSizeIsBounded := by
  intro pix w h c cs out he
  obtain ⟨hc, rfl⟩ := of_wholeEncode_eq_ok he
  have hend := encodeFrom_induction (motive := PassInv c) (pix := pix) (fun _ _ _ ha hp => hp.encodePixel hc ha)
    (passInv_start w h c cs) (w.toNat * h.toNat) 0
  rw [Nat.zero_add] at hend
  exact hend.passStream_length

end Sys2Proof.Machine
end

section
/-! Stretches of zero bytes in the payload (R181): at most four operand bytes of one instruction and one `INDEX 0`. -/

namespace Sys2Proof.Machine

/-- No stretch of zeros in `l` is longer than 5, and one at its end no longer than `t`. -/
structure ZeroTail (t : Nat) (l : List Byte) : Prop where
  atEnd : ∀ k, List.replicate k 0 <:+ l → k ≤ t
  within : ∀ k, List.replicate k 0 <:+: l → k ≤ 5

section
variable {t : Nat} {l : List Byte} {b : Byte}

theorem zeroTail_nil : ZeroTail 0 [] where
  atEnd k h := by simpa using h.length_le
  within k h := by
    have := h.length_le
    simp only [List.length_replicate, List.length_nil] at this
    omega

theorem ZeroTail.mono (h : ZeroTail t l) {u : Nat} (htu : t ≤ u) : ZeroTail u l where
  atEnd k hk := (h.atEnd k hk).trans htu
  within := h.within

/-- A stretch of zeros at the end of one byte more: none, or that byte is zero and the rest stood at the end. -/
theorem zeros_suffix_concat {k : Nat} (h : List.replicate k 0 <:+ l ++ [b]) :
    k = 0 ∨ ∃ j, k = j + 1 ∧ b = 0 ∧ List.replicate j 0 <:+ l := by
  cases k with
  | zero => exact .inl rfl
  | succ j =>
    rw [List.replicate_succ'] at h
    rcases List.suffix_concat_iff.1 h with hnil | ⟨zeros, heq, hzeros⟩
    · simp at hnil
    · obtain ⟨rfl, hb⟩ := List.append_inj' heq rfl
      exact .inr ⟨j, rfl, (List.singleton_inj.1 hb).symm, hzeros⟩

/-- A byte more makes the stretch at the end at most one longer. -/
theorem ZeroTail.concat (h : ZeroTail t l) (ht : t < 5) (b : Byte) : ZeroTail (t + 1) (l ++ [b]) := by
  have atEnd (k : Nat) (hk : List.replicate k 0 <:+ l ++ [b]) : k ≤ t + 1 := by
    rcases zeros_suffix_concat hk with rfl | ⟨j, rfl, -, hj⟩
    · exact Nat.zero_le _
    · exact Nat.succ_le_succ (h.atEnd j hj)
  refine ⟨atEnd, fun k hk => ?_⟩
  rcases List.infix_concat_iff.1 hk with hk | hk
  · have := atEnd k hk
    omega
  · exact h.within k hk

/-- A byte other than zero ends the stretch. -/
theorem ZeroTail.concat_ne_zero (h : ZeroTail t l) (hb : b ≠ 0) : ZeroTail 0 (l ++ [b]) := by
  have atEnd (k : Nat) (hk : List.replicate k 0 <:+ l ++ [b]) : k = 0 := by
    rcases zeros_suffix_concat hk with rfl | ⟨j, -, rfl, -⟩
    · rfl
    · exact absurd rfl hb
  refine ⟨fun k hk => (atEnd k hk).le, fun k hk => ?_⟩
  rcases List.infix_concat_iff.1 hk with hk | hk
  · exact (atEnd k hk).trans_le (Nat.zero_le 5)
  · exact h.within k hk

/-! ### Instructions (R181 (1), (2)) -/

theorem or_ne_zero {x : Byte} (hx : x ≠ 0) (y : Byte) : x ||| y ≠ 0 := fun h => hx (BitVec.or_eq_zero_iff.1 h).1

/-- Every instruction but `INDEX 0` begins with a byte other than zero, and has at most four bytes behind it. -/
theorem ZeroTail.append_encode (h : ZeroTail t l) {i : Instr} (hi : i ≠ .index 0) :
    ZeroTail 4 (l ++ encode i) := by
  cases i with
  | rgb r g b =>
    have hop := h.concat_ne_zero (b := 0xFE) (by decide)
    have := ((hop.concat (by decide) r).concat (by decide) g).concat (by decide) b
    exact (by simpa [encode] using this : ZeroTail 3 _).mono (by decide)
  | rgba r g b a =>
    have hop := h.concat_ne_zero (b := 0xFF) (by decide)
    have := (((hop.concat (by decide) r).concat (by decide) g).concat (by decide) b).concat (by decide) a
    simpa [encode] using this
  | index idx =>
    have hne : (0x00 ||| BitVec.ofNat 8 idx.val : Byte) ≠ 0 := by
      revert idx
      decide
    exact (h.concat_ne_zero hne).mono (by decide)
  | diff dr dg db =>
    have hne : (0x40 ||| biased dr 2 <<< 4 ||| biased dg 2 <<< 2 ||| biased db 2 : Byte) ≠ 0 :=
      or_ne_zero (or_ne_zero (or_ne_zero (by decide) _) _) _
    exact (h.concat_ne_zero hne).mono (by decide)
  | luma dg drg dbg =>
    have hop := h.concat_ne_zero (or_ne_zero (x := 0x80) (by decide) (biased dg 32))
    have := hop.concat (by decide) (biased drg 8 <<< 4 ||| biased dbg 8)
    exact (by simpa [encode] using this : ZeroTail 1 _).mono (by decide)
  | run length =>
    exact (h.concat_ne_zero (or_ne_zero (x := 0xC0) (by decide) _)).mono (by decide)

/-- The byte of `INDEX 0` is zero. -/
theorem ZeroTail.append_indexZero (h : ZeroTail 4 l) : ZeroTail 5 (l ++ encode (.index 0)) := h.concat (by decide) 0

/-- A flush leaves the payload as it is, or ends it with a byte other than zero. -/
theorem ZeroTail.append_runBytes (h : ZeroTail t l) (run : Nat) :
    Whole.runBytes run = [] ∨ ZeroTail 4 (l ++ Whole.runBytes run) := by
  rw [← runBytes_eq]
  split
  · exact .inr (h.append_encode (by simp))
  · exact .inl rfl

/-! ### The pass (R181 (3)) -/

/-- The bytes after `hdr` end in at most four zeros, or in five where the last pixel stands in slot 0: after
`INDEX 0`, whose zero may follow four operand bytes. -/
def PayloadZeros (hdr : List Byte) (p : Whole.EncPass) : Prop :=
  ∃ payload, p.out = hdr ++ payload ∧
    (ZeroTail 4 payload ∨ (ZeroTail 5 payload ∧ cacheGet p.cache 0 = p.prev))

section
variable {hdr : List Byte} {p : Whole.EncPass}

theorem PayloadZeros.extend (h : PayloadZeros hdr p) : PayloadZeros hdr (Whole.encodePixel p.prev p) := by
  by_cases hfull : p.run + 1 = 62
  · obtain ⟨payload, hout, hz⟩ := h
    rw [encodePixel_prev_of_full hfull]
    refine ⟨payload ++ encode (.run 62), by rw [hout, List.append_assoc]; rfl, .inl ?_⟩
    rcases hz with hz | ⟨hz, -⟩ <;> exact hz.append_encode (by simp)
  · rw [encodePixel_prev_of_eq hfull]
    exact h

/-- `INDEX 0` directly after `INDEX 0` would be the previous pixel again (R179 (d)); so its zero follows at most
four. -/
theorem PayloadZeros.emit (h : PayloadZeros hdr p) {px : Pixel} (hne : px ≠ p.prev) :
    PayloadZeros hdr (Whole.encodePixel px p) := by
  obtain ⟨payload, hout, hz⟩ := h
  have hflush : ZeroTail 4 (payload ++ Whole.runBytes p.run) ∨
      (ZeroTail 5 (payload ++ Whole.runBytes p.run) ∧ cacheGet p.cache 0 = p.prev) := by
    have hz5 : ZeroTail 5 payload := hz.elim (·.mono (by decide)) And.left
    rcases hz5.append_runBytes p.run with hnil | hz4
    · rwa [hnil, List.append_nil]
    · exact .inl hz4
  rw [encodePixel_of_ne hne]
  refine ⟨payload ++ Whole.runBytes p.run ++ Whole.emitBytes px p.prev p.cache, by simp [hout], ?_⟩
  rw [emitBytes_eq_encode]
  by_cases hindex : emission (encoderWith p.prev p.cache) px = .index 0
  · obtain ⟨hslot, hit⟩ := selected_of_emission_eq hindex
    rw [hindex]
    rcases hflush with hz4 | ⟨-, hprev⟩
    · refine .inr ⟨hz4.append_indexZero, ?_⟩
      show cacheGet (cacheStore p.cache px) 0 = px
      rw [hslot, cacheGet_store_same]
    · exact absurd (hit.symm.trans hprev) hne
  · rcases hflush with hz' | ⟨hz', -⟩ <;> exact .inl (hz'.append_encode hindex)

theorem PayloadZeros.encodePixel (h : PayloadZeros hdr p) (px : Pixel) :
    PayloadZeros hdr (Whole.encodePixel px p) := by
  by_cases heq : px = p.prev
  · exact heq ▸ h.extend
  · exact h.emit heq

/-- The stream is the header, a payload without six zeros in a row, and the trailer. -/
theorem PayloadZeros.passStream (h : PayloadZeros hdr p) :
    ∃ payload, passStream p = hdr ++ (payload ++ Config.trailer) ∧ ZeroTail 5 payload := by
  obtain ⟨payload, hout, hz⟩ := h
  have hz5 : ZeroTail 5 payload := hz.elim (·.mono (by decide)) And.left
  refine ⟨payload ++ Whole.runBytes p.run, by simp [Machine.passStream, hout], ?_⟩
  rcases hz5.append_runBytes p.run with hnil | hz4
  · rwa [hnil, List.append_nil]
  · exact hz4.mono (by decide)

end

/-! ### The trailer scan (R181 (4), (5)) -/

/-- A window that begins in the payload ends in it, with seven zeros in a row, or ends on one of the trailer's first
seven bytes, which are zero. -/
theorem ZeroTail.window_ne_trailer (h : ZeroTail t l) {k : Nat} (hk : k < l.length) :
    ((l ++ Config.trailer).drop k).take 8 ≠ Config.trailer := by
  intro hw
  rw [List.drop_append_of_le_length hk.le] at hw
  have hlen : (l.drop k).length = l.length - k := List.length_drop
  by_cases hlong : 8 ≤ l.length - k
  · rw [List.take_append_of_le_length (by omega)] at hw
    have hprefix : List.replicate 7 0 <+: l.drop k :=
      (show List.replicate 7 (0 : Byte) <+: Config.trailer by decide).trans (hw ▸ List.take_prefix 8 _)
    exact absurd (h.within 7 (hprefix.isInfix.trans (List.drop_suffix k l).isInfix)) (by decide)
  · have hzero : ∀ j : Fin 7, Config.trailer[j.val]? = some 0 := by decide
    have hone : Config.trailer[7]? = some 1 := rfl
    have hlast := congrArg (·[7]?) hw
    simp only [hone, List.getElem?_take_of_lt (show 7 < 8 by decide)] at hlast
    rw [List.getElem?_append_right (by omega), hzero ⟨7 - (l.drop k).length, by omega⟩] at hlast
    cases hlast

/-- After a header of 14 bytes the first window equal to the trailer is the last one. -/
theorem ZeroTail.payloadEnd_eq {hdr : List Byte} (hh : hdr.length = 14) (h : ZeroTail t l) :
    Whole.payloadEnd (hdr ++ (l ++ Config.trailer)) = 14 + l.length := by
  have hdrop (q : Nat) (hq : 14 ≤ q) :
      (hdr ++ (l ++ Config.trailer)).drop q = (l ++ Config.trailer).drop (q - 14) := by
    rw [List.drop_append, hh, List.drop_eq_nil_of_le (by omega), List.nil_append]
  have hfind : ((List.range' 14 ((hdr ++ (l ++ Config.trailer)).length - 21)).find? fun q =>
      ((hdr ++ (l ++ Config.trailer)).drop q).take 8 = Config.trailer) = some (14 + l.length) := by
    refine List.find?_range'_eq_some.2 ⟨?_, ?_, fun q hlo hhi => ?_⟩
    · rw [hdrop _ (by omega), Nat.add_sub_cancel_left, List.drop_left]
      decide
    · simp [hh, Config.trailer]
      omega
    · have := h.window_ne_trailer (k := q - 14) (by omega)
      simpa [hdrop q hlo] using this
  exact congrArg (Option.getD · _) hfind

end

/-- Settles O55: the payload of the whole pass holds no six zeros in a row, so no window that begins in it is the
trailer. -/
theorem encodedPayloadHoldsNoTrailer : Obligations.EncodedPayloadHoldsNoTrailer := by
  intro pix w h c cs out he
  obtain ⟨-, rfl⟩ := of_wholeEncode_eq_ok he
  have hstart : PayloadZeros (Whole.header w h c cs) (passStart w h c cs) :=
    ⟨[], (List.append_nil _).symm, .inl (zeroTail_nil.mono (by decide))⟩
  have hend := encodeFrom_induction (motive := fun _ => PayloadZeros (Whole.header w h c cs)) (pix := pix) (c := c)
    (k := 0) (fun _ px _ _ hp => hp.encodePixel px) hstart (w.toNat * h.toNat) 0
  obtain ⟨payload, hstream, hz⟩ := hend.passStream
  have hh : (Whole.header w h c cs).length = 14 := rfl
  have ht : Config.trailer.length = 8 := rfl
  rw [hstream, hz.payloadEnd_eq hh, List.length_append, List.length_append, hh, ht]
  omega

end Sys2Proof.Machine
end

section
/-! The encoder engine simulates the pass of R177, and every move keeps its invariant (R179, R180). -/

namespace Sys2Proof.Machine

/-- The engine holds the variables of the pass: the registers, and `out` in `ENC_OUT` below `ENC_WP`. -/
structure Simulates (p : Whole.EncPass) (e : EncState) : Prop where
  prev : e.prev = p.prev
  cache : e.cache = p.cache
  run : e.run = p.run
  wp : e.wp = p.out.length
  out : e.outMem.readBytes 0 p.out.length = some p.out

section
variable {p : Whole.EncPass} {e : EncState}

/-- `append` extends what `ENC_OUT` reads as from 0 on (R176). -/
theorem Simulates.readBytes_append (h : Simulates p e) (bs : List Byte) :
    (e.append bs).outMem.readBytes 0 (p.out ++ bs).length = some (p.out ++ bs) := by
  rw [List.length_append, EncState.append_outMem, h.wp]
  refine Memory.readBytes_append ?_ ?_
  · rw [Memory.readBytes_writeBytes_outside (by omega)]
    exact h.out
  · rw [Nat.zero_add]
    exact Memory.readBytes_writeBytes

theorem Simulates.append_wp (h : Simulates p e) (bs : List Byte) : (e.append bs).wp = (p.out ++ bs).length := by
  rw [EncState.append_wp, h.wp, List.length_append]

theorem Simulates.extend (h : Simulates p e) : Simulates (Whole.encodePixel p.prev p) (e.pixelStep e.prev) := by
  by_cases hfull : p.run + 1 = 62
  · rw [encodePixel_prev_of_full hfull, pixelStep_prev_of_full (by rw [h.run, hfull])]
    exact ⟨h.prev, h.cache, rfl, h.append_wp _, h.readBytes_append _⟩
  · rw [encodePixel_prev_of_eq hfull, pixelStep_prev_of_eq (by rwa [h.run])]
    exact ⟨h.prev, h.cache, by rw [h.run], h.wp, h.out⟩

theorem Simulates.emit (h : Simulates p e) {px : Pixel} (hne : px ≠ p.prev) :
    Simulates (Whole.encodePixel px p) (e.pixelStep px) := by
  rw [encodePixel_of_ne hne, pixelStep_of_ne (by rwa [h.prev]), h.run, h.prev, h.cache]
  exact ⟨rfl, by rw [← h.cache]; rfl, rfl, h.append_wp _, h.readBytes_append _⟩

/-- The commuting diagram of one pixel (R164 to R173). -/
theorem Simulates.pixelStep (h : Simulates p e) (px : Pixel) :
    Simulates (Whole.encodePixel px p) (e.pixelStep px) := by
  by_cases heq : px = p.prev
  · subst heq
    have := h.extend
    rwa [h.prev] at this
  · exact h.emit heq

/-- At the end of the pass `ENC_OUT` holds the stream, its length in `ENC_OUTLEN` (R174, R175). -/
theorem Simulates.finish (h : Simulates p e) :
    e.finish.wp = (passStream p).length ∧ e.finish.outLen = (passStream p).length ∧
      e.finish.outMem.readBytes 0 (passStream p).length = some (passStream p) := by
  rw [encFinish_eq_append, h.run]
  exact ⟨h.append_wp _, h.append_wp _, h.readBytes_append _⟩

end

/-- After the start the engine holds the variables of the pass at its start (R160, R281). -/
theorem simulates_start {e : EncState} (hl : e.channels.toNat * e.width.toNat * e.height.toNat ≤ e.inLen)
    (hc : channelsOk e.channels) : Simulates (passStart e.width e.height e.channels e.colorspace) e.start := by
  rw [encStart_of_ok hl hc]
  exact ⟨rfl, rfl, rfl, rfl, Memory.readBytes_writeBytes⟩

/-! ### The invariant by status -/

namespace EncState

/-- What the invariant says of a BUSY encoder: its bytes are those of a pass that keeps `PassInv`. -/
structure InPass (e : EncState) : Prop where
  err : e.err = none
  checked : channelsOk e.channels ∧ e.channels.toNat * e.width.toNat * e.height.toNat ≤ e.inLen
  pi_le : e.pi ≤ e.quota
  pass : ∃ p, Simulates p e ∧ PassInv e.channels e.pi p

variable {e : EncState}

theorem Inv.inPass (h : e.Inv) (hb : e.status = .busy) : e.InPass where
  err := by
    have := h.err_iff
    simpa [hb] using this
  checked := h.checked hb
  pi_le := h.pi_le hb
  pass := by
    obtain ⟨out, hout⟩ := Memory.readBytes_isSome (m := e.outMem) (a := 0) (n := e.wp)
      fun x _ hx => h.written (.inl hb) x (by omega)
    have hlen := Memory.length_of_readBytes hout
    refine ⟨⟨e.prev, e.cache, e.run, out⟩, ⟨rfl, rfl, rfl, hlen.symm, hlen.symm ▸ hout⟩, ?_⟩
    exact ⟨h.run_le, hlen.symm ▸ h.wp_bound hb, h.opaque_prev hb, h.opaque_cache hb, h.prev_cached hb⟩

theorem InPass.inv (h : e.InPass) (hb : e.status = .busy) : e.Inv := by
  obtain ⟨p, hsim, hp⟩ := h.pass
  exact {
    run_le := hsim.run ▸ hp.run_le
    err_iff := by simp [hb, h.err]
    checked := fun _ => h.checked
    pi_le := fun _ => h.pi_le
    wp_bound := fun _ => by rw [hsim.wp, hsim.run]; exact hp.size
    opaque_prev := fun _ => hsim.prev ▸ hp.opaque_prev
    opaque_cache := fun _ => hsim.cache ▸ hp.opaque_cache
    prev_cached := fun _ => by rw [hsim.prev, hsim.cache]; exact hp.prev_cached
    written := fun _ => hsim.wp ▸ Memory.placed_of_readBytes hsim.out
    done_len := fun hd => by simp [hb] at hd }

/-- Outside BUSY the invariant speaks of the run, the cause and, when DONE, the stream. -/
theorem inv_of_not_busy (hb : e.status ≠ .busy) (hr : e.run ≤ 61) (he : e.status = .error ↔ e.err.isSome)
    (hd : e.status = .done → e.outMem.Placed e.wp ∧ e.outLen = e.wp ∧ 22 ≤ e.outLen) : e.Inv where
  run_le := hr
  err_iff := he
  checked h := absurd h hb
  pi_le h := absurd h hb
  wp_bound h := absurd h hb
  opaque_prev h := absurd h hb
  opaque_cache h := absurd h hb
  prev_cached h := absurd h hb
  written h := h.elim (absurd · hb) fun hdone => (hd hdone).1
  done_len h := (hd h).2

/-! ### What each move keeps -/

theorem InPass.pixelStep (h : e.InPass) (hm : e.pi < e.quota) {px : Pixel} (ha : e.channels = 3 → px.a = 255) :
    ({ (e.pixelStep px) with pi := e.pi + 1 } : EncState).InPass := by
  obtain ⟨p, hsim, hp⟩ := h.pass
  obtain ⟨hprev, hcache, hrun, hwp, hout⟩ := hsim.pixelStep px
  have hpass := hp.encodePixel h.checked.1 ha
  rw [pixelStep_frame]
  exact ⟨h.err, h.checked, hm, _, ⟨hprev, hcache, hrun, hwp, hout⟩, hpass⟩

theorem InPass.inv_finish (h : e.InPass) : e.finish.Inv := by
  obtain ⟨p, hsim, hp⟩ := h.pass
  obtain ⟨hwp, hlen, hout⟩ := hsim.finish
  have hdone : e.finish.outMem.Placed e.finish.wp ∧ e.finish.outLen = e.finish.wp ∧ 22 ≤ e.finish.outLen :=
    ⟨hwp ▸ Memory.placed_of_readBytes hout, hlen.trans hwp.symm, hlen ▸ hp.passStream_length.1⟩
  refine inv_of_not_busy ?_ ?_ ?_ fun _ => hdone
  · rw [encFinish_eq_append]; simp
  · rw [encFinish_eq_append]; exact Nat.zero_le _
  · rw [encFinish_eq_append]; simp [h.err]

theorem Inv.move {t : EncState} (h : e.Inv) (hm : e.move = .next t) : t.Inv := by
  rcases encMove_cases hm with ⟨-, rfl⟩ | ⟨hb, -, rfl⟩ | ⟨hb, hmore, px, hf, rfl⟩
  · exact h
  · exact (h.inPass hb).inv_finish
  · refine ((h.inPass hb).pixelStep hmore (fetchPixel_opaque hf)).inv ?_
    rw [pixelStep_frame]
    exact hb

/-- An accepted start fails with its cause or is in the pass at pixel 0. -/
theorem Inv.start (h : e.Inv) : e.start.Inv := by
  by_cases hl : e.inLen < e.channels.toNat * e.width.toNat * e.height.toNat
  · rw [encStart_of_short hl]
    exact inv_of_not_busy (by simp) h.run_le (by simp) (by simp)
  rw [not_lt] at hl
  by_cases hc : channelsOk e.channels
  · have hsim := simulates_start hl hc
    rw [encStart_of_ok hl hc] at hsim ⊢
    exact InPass.inv ⟨rfl, ⟨hc, hl⟩, Nat.zero_le _, _, hsim, passInv_start _ _ _ _⟩ rfl
  · rw [encStart_of_bad_channels hl hc]
    exact inv_of_not_busy (by simp) h.run_le (by simp) (by simp)

/-- The clauses that mention the parameters speak of a BUSY encoder only. -/
theorem Inv.writeInput (h : e.Inv) (hb : e.status ≠ .busy) (w hh : Word32) (c cs : Byte) (n : Nat) (m : Memory) :
    ({ e with width := w, height := hh, channels := c, colorspace := cs, inLen := n, inMem := m } : EncState).Inv :=
  inv_of_not_busy hb h.run_le h.err_iff fun hd => ⟨h.written (.inr hd), h.done_len hd⟩

end EncState

theorem hostExec_keeps_encInv {c : HostCmd} {s t : State} (h : s.enc.Inv) (hx : hostExec c s = .next t) :
    t.enc.Inv := by
  rcases (hostExec_cases hx).1 with he | he | ⟨hb, he | ⟨w, hh, cn, cs, n, m, he, -⟩⟩
  · exact he ▸ h
  · exact he ▸ EncState.inv_of_idle rfl rfl rfl
  · exact he ▸ h.start
  · exact he ▸ h.writeInput hb w hh cn cs n m

/-- Settles O50: DEC leaves ENC alone, ENC's own move and the host's commands keep the invariant. -/
theorem stepKeepsEncoderInvariant : Obligations.StepKeepsEncoderInvariant := by
  intro s t h hstep
  rcases step_cases hstep with ⟨-, e, hm, rfl⟩ | ⟨-, hm⟩ | ⟨-, ⟨-, rfl⟩ | ⟨c, cs, -, hx⟩⟩
  · exact h.move hm
  · obtain ⟨-, -, hframe⟩ := decMove_frame hm
    rw [hframe]
    exact h
  · exact h
  · exact hostExec_keeps_encInv (s := { popTurn s with host := cs }) h hx

end Sys2Proof.Machine
end

section
/-! The whole encode operation, step by step, and its one-function form (R160 to R177). -/

namespace Sys2Proof.Machine

/-- With a placed source the fetch answers pixel `ENC_PI` of the buffer (R62, R162). -/
theorem fetchPixel_eq_pixelAt {e : EncState} {pix : List Byte} {n : Nat} (hread : e.inMem.readBytes 0 n = some pix)
    (hc : channelsOk e.channels) (hn : (e.pi + 1) * e.channels.toNat ≤ n) :
    fetchPixel e = some (Whole.pixelAt pix e.channels e.pi) := by
  have hend : (e.pi + 1) * e.channels.toNat = e.pi * e.channels.toNat + e.channels.toNat := Nat.succ_mul _ _
  have read {a : Nat} (ha : a < n) : e.inMem.read a = some (pix.getD a 0) := by
    have := Memory.read_of_readBytes hread ha
    rwa [Nat.zero_add] at this
  have h3 : 3 ≤ e.channels.toNat := by rcases hc with h | h <;> rw [h] <;> decide
  refine fetchPixel_of_reads (read (by omega)) (read (by omega)) (read (by omega)) fun h4 => read ?_
  have : e.channels.toNat = 4 := by rw [h4]; rfl
  omega

/-- A BUSY engine at pixel `i` of `q`, over the source `pix`, with the variables `p` of the pass. -/
structure AtPixel (pix : List Byte) (c : Byte) (q i : Nat) (p : Whole.EncPass) (e : EncState) : Prop where
  busy : e.status = .busy
  err : e.err = none
  channels : e.channels = c
  quota : e.quota = q
  pi : e.pi = i
  source : e.inMem.readBytes 0 e.inLen = some pix
  sim : Simulates p e

/-- A DONE engine with the stream `out`. -/
structure DoneWith (out : List Byte) (e : EncState) : Prop where
  done : e.status = .done
  err : e.err = none
  outLen : e.outLen = out.length
  out : e.outMem.readBytes 0 out.length = some out

section
variable {pix : List Byte} {c : Byte} {q i : Nat} {p : Whole.EncPass}

theorem AtPixel.move {e : EncState} (h : AtPixel pix c q i p e) (hc : channelsOk c) (hsize : q * c.toNat ≤ pix.length)
    (hi : i < q) :
    ∃ t, e.move = .next t ∧ AtPixel pix c q (i + 1) (Whole.encodePixel (Whole.pixelAt pix c i) p) t := by
  obtain ⟨hb, he, rfl, rfl, rfl, hread, hsim⟩ := h
  have hn : (e.pi + 1) * e.channels.toNat ≤ e.inLen :=
    (Nat.mul_le_mul_right _ hi).trans (hsize.trans (Memory.length_of_readBytes hread).le)
  refine ⟨_, encMove_pixel hb hi (fetchPixel_eq_pixelAt hread hc hn), ?_⟩
  obtain ⟨hprev, hcache, hrun, hwp, hout⟩ := hsim.pixelStep (Whole.pixelAt pix e.channels e.pi)
  rw [pixelStep_frame]
  exact ⟨hb, he, rfl, rfl, rfl, hread, hprev, hcache, hrun, hwp, hout⟩

theorem AtPixel.finish {e : EncState} (h : AtPixel pix c q q p e) :
    e.move = .next e.finish ∧ DoneWith (passStream p) e.finish := by
  obtain ⟨-, hlen, hout⟩ := h.sim.finish
  refine ⟨encMove_finish h.busy (by rw [h.quota, h.pi]), ?_, ?_, hlen, hout⟩
  · rw [encFinish_eq_append]
  · rw [encFinish_eq_append]; exact h.err

/-! ### Runs of the whole block -/

theorem coreRun_succ_of_step (M : Host.Core) {s t : M.State} (k : Nat) (h : M.step s = .next t) :
    M.run (k + 1) s = M.run k t := by
  simp only [Host.Core.run, h]

theorem run_succ_of_step {s t : State} (k : Nat) (h : step s = .next t) :
    Host.Core.run core (k + 1) s = Host.Core.run core k t :=
  coreRun_succ_of_step core k h

/-- With no schedule and DEC not BUSY, a BUSY ENC moves. -/
theorem step_encMove_of_turns_nil {s : State} {e : EncState} (ht : s.turns = []) (hd : s.dec.status ≠ .busy)
    (hb : s.enc.status = .busy) (hm : s.enc.move = .next e) : step s = .next { s with enc := e } := by
  have ha : nextAgent s = .enc := by simp [nextAgent, ht, hd, hb]
  rw [step_encMove ha hm]
  simp [popTurn, ht]

/-- The rest of the pass: one step per pixel and one for the end. -/
theorem run_encode_pass (hc : channelsOk c) (hsize : q * c.toNat ≤ pix.length) (n : Nat) {s : State}
    (ht : s.turns = []) (hd : s.dec.status ≠ .busy) (h : AtPixel pix c q i p s.enc) (hn : i + n = q) :
    ∃ e, Host.Core.run core (n + 1) s = .next { s with enc := e } ∧
      DoneWith (passStream (Whole.encodeFrom pix c n i p)) e := by
  induction n generalizing i p s with
  | zero =>
    obtain rfl : i = q := hn
    obtain ⟨hmove, hdone⟩ := h.finish
    exact ⟨_, run_succ_of_step 0 (step_encMove_of_turns_nil ht hd h.busy hmove), hdone⟩
  | succ n ih =>
    obtain ⟨e, hmove, hnext⟩ := h.move hc hsize (by omega)
    obtain ⟨u, hrun, hdone⟩ := ih (s := { s with enc := e }) ht hd hnext (by omega)
    exact ⟨u, (run_succ_of_step (n + 1) (step_encMove_of_turns_nil ht hd h.busy hmove)).trans hrun, hdone⟩

/-- A start that passes both checks is at pixel 0. -/
theorem atPixel_start {e : EncState} (hread : e.inMem.readBytes 0 e.inLen = some pix)
    (hl : e.channels.toNat * e.width.toNat * e.height.toNat ≤ e.inLen) (hc : channelsOk e.channels) :
    AtPixel pix e.channels (e.width.toNat * e.height.toNat) 0
      (passStart e.width e.height e.channels e.colorspace) e.start := by
  have hsim := simulates_start hl hc
  rw [encStart_of_ok hl hc] at hsim ⊢
  exact ⟨rfl, rfl, rfl, rfl, rfl, hread, hsim⟩

end

/-- Settles O52: both forms make the same checks; where they pass, the engine at pixel 0 runs through the pass. -/
theorem encoderRunMatchesEncodeFunction : Obligations.EncoderRunMatchesEncodeFunction := by
  intro s pix hh ht he hd hread
  have ha : nextAgent s = .host := by simp [nextAgent, ht, he, hd]
  have hstep := step_startEnc ha hh he
  have hlen := Memory.length_of_readBytes hread
  by_cases hl : pix.length < s.enc.channels.toNat * s.enc.width.toNat * s.enc.height.toNat
  · rw [wholeEncode_of_short _ hl]
    rw [encStart_of_short (hlen ▸ hl)] at hstep
    exact ⟨_, hstep, rfl, rfl, rfl⟩
  rw [not_lt] at hl
  by_cases hc : channelsOk s.enc.channels
  · rw [wholeEncode_of_ok _ hl hc]
    have hsize : s.enc.width.toNat * s.enc.height.toNat * s.enc.channels.toNat ≤ pix.length :=
      calc _ = s.enc.channels.toNat * s.enc.width.toNat * s.enc.height.toNat := by ring
        _ ≤ pix.length := hl
    obtain ⟨e, hrun, hdone⟩ := run_encode_pass (s := { popTurn s with host := [], enc := s.enc.start }) hc hsize
      (s.enc.width.toNat * s.enc.height.toNat) (by simp [popTurn, ht]) hd (atPixel_start hread (hlen ▸ hl) hc)
      (Nat.zero_add _)
    exact ⟨_, (run_succ_of_step _ hstep).trans hrun, hdone.done, hdone.err, hdone.outLen, hdone.out, rfl⟩
  · rw [wholeEncode_of_bad_channels _ hl hc]
    rw [encStart_of_bad_channels (hlen ▸ hl) hc] at hstep
    exact ⟨_, hstep, rfl, rfl, rfl⟩

end Sys2Proof.Machine
end

section
/-! What an instruction emits, and how often: its operands over the previous pixel and the cache (R204 to R209), the
effect of running it (R210, R211, R214), and that the encoder's choice emits the encoder's pixel (R216 (5)). -/

namespace Sys2Proof.Machine

/-- The pixel an instruction emits over the previous pixel and the cache (R204 to R209). -/
def emittedPixel (prev : Pixel) (cache : Cache) : Instr → Pixel
  | .rgb r g b => ⟨r, g, b, prev.a⟩
  | .rgba r g b a => ⟨r, g, b, a⟩
  | .index idx => cacheGet cache idx
  | .diff dr dg db => addDeltas dr dg db prev
  | .luma dg drg dbg => addDeltas (dg + drg) dg (dg + dbg) prev
  | .run _ => prev

/-- How often it is emitted where the quota still needs `room` pixels (R209). -/
def emittedCount (room : Nat) : Instr → Nat
  | .run length => min length room
  | _ => 1

theorem emittedCount_le {room : Nat} (h : 0 < room) (i : Instr) : emittedCount room i ≤ room := by
  cases i with
  | run length => exact Nat.min_le_right length room
  | _ => exact h

theorem emittedCount_of_ne_run {i : Instr} (h : ∀ n, i ≠ .run n) (room : Nat) : emittedCount room i = 1 := by
  cases i with
  | run length => exact absurd rfl (h length)
  | _ => rfl

/-- Running an instruction is emitting its pixel and advancing by its length (R210, R211). -/
theorem exec_eq_emitTimes (i : Instr) (s : State) :
    exec i s = .next { s with
      dec := (s.dec.emitTimes (emittedCount (s.dec.quota - s.dec.po) i)
        (emittedPixel s.dec.prev s.dec.cache i)).advance i.length } := by
  cases i <;> rfl

/-- One instruction other than `RUN` emits its pixel once, whatever the channel count is. -/
theorem exec_of_ne_run {i : Instr} (h : ∀ n, i ≠ .run n) (s : State) :
    exec i s = .next { s with dec := (s.dec.emit (emittedPixel s.dec.prev s.dec.cache i)).advance i.length } := by
  rw [exec_eq_emitTimes, emittedCount_of_ne_run h]
  rfl

/-! ### The channel count (R214) -/

/-- Emission with another channel count differs in `DEC_OUT` only: neither register nor slot depends on it. -/
theorem DecState.emitTimes_withChannels (k : Nat) (px : Pixel) (d : DecState) (c : Byte) :
    ({ d with channels := c } : DecState).emitTimes k px =
      { d.emitTimes k px with
        channels := c, outMem := (({ d with channels := c } : DecState).emitTimes k px).outMem } := by
  cases k with
  | zero => rfl
  | succ k =>
    obtain ⟨hprev, hcache⟩ := emitTimes_succ k px d
    obtain ⟨hprev', hcache'⟩ := emitTimes_succ k px { d with channels := c }
    rw [emitTimes_frame, emitTimes_frame (k + 1) px d, hprev, hcache, hprev', hcache']

/-! ### The instruction the encoder selects (R216 (5)) -/

theorem addDeltas_delta {px prev : Pixel} (h : px.a = prev.a) :
    addDeltas (delta px.r prev.r) (delta px.g prev.g) (delta px.b prev.b) prev = px := by
  simp only [addDeltas, u8_add_delta, ← h]

/-- Over the encoder's previous pixel the selected instruction emits the encoder's pixel; of the cache it matters only
that a slot the encoder hits holds the pixel. -/
theorem emittedPixel_emission (e : EncState) (px : Pixel) {cache : Cache}
    (hit : cacheGet e.cache (pixelHash px) = px → cacheGet cache (pixelHash px) = px) :
    emittedPixel e.prev cache (emission e px) = px := by
  rcases emission_cases e px with ⟨h, hi⟩ | ⟨-, -, hi⟩ | ⟨-, ha, dr, dg, db, rfl, rfl, rfl, hform⟩
  · rw [hi]; exact hit h
  · rw [hi]; rfl
  · rcases hform with ⟨-, hi⟩ | ⟨-, -, hi⟩ | ⟨-, -, hi⟩ <;> rw [hi]
    · exact addDeltas_delta ha
    · simp only [emittedPixel, add_sub_cancel]
      exact addDeltas_delta ha
    · simp only [emittedPixel, ← ha]

theorem emission_ne_run (e : EncState) (px : Pixel) (n : Nat) : emission e px ≠ .run n :=
  fun h => selected_of_emission_eq h

/-! ### The statements on the six instructions -/

/-- Settles O11: one emission of the literal, alpha the previous pixel's. -/
theorem rgbEmitsLiteralKeepsAlpha : Obligations.RgbEmitsLiteralKeepsAlpha :=
  fun _ _ _ _ hc => ⟨_, rfl, emitted_of_emit hc _ _⟩

/-- Settles O12: one emission of the four operand bytes. -/
theorem rgbaEmitsLiteral : Obligations.RgbaEmitsLiteral :=
  fun _ _ _ _ _ hc => ⟨_, rfl, emitted_of_emit hc _ _⟩

/-- Settles O13: one emission of the slot's content as it was before the store. -/
theorem indexEmitsCachedPixel : Obligations.IndexEmitsCachedPixel :=
  fun _ _ hc => ⟨_, rfl, emitted_of_emit hc _ _⟩

/-- Settles O14: one emission; `u8` is the reduction modulo 256 (`u8_toNat`). -/
theorem diffAddsDeltasModulo256 : Obligations.DiffAddsDeltasModulo256 :=
  fun _ _ _ _ hc => ⟨_, _, rfl, emitted_of_emit hc _ _, u8_toNat _, u8_toNat _, u8_toNat _, rfl⟩

/-- Settles O15: one emission; `u8` is the reduction modulo 256 (`u8_toNat`). -/
theorem lumaAddsRelativeDeltasModulo256 : Obligations.LumaAddsRelativeDeltasModulo256 :=
  fun _ _ _ _ hc => ⟨_, _, rfl, emitted_of_emit hc _ _, u8_toNat _, u8_toNat _, u8_toNat _, rfl⟩

/-- Settles O16: the repetitions are at least one, by the length and by the unmet quota. -/
theorem runRepeatsPreviousPixel : Obligations.RunRepeatsPreviousPixel := by
  intro s length hc hwf hpo
  obtain ⟨hlo, -⟩ := Instr.wellFormed_run_iff.1 hwf
  have hcount : 0 < min length (s.dec.width.toNat * s.dec.height.toNat - s.dec.po) := by omega
  exact ⟨_, rfl, emitted_of_emitTimes hc hcount s.dec.prev 1⟩

/-- Settles O17: pixel, count and length of an instruction do not depend on the channel count. -/
theorem channelCountChangesOutputOnly : Obligations.ChannelCountChangesOutputOnly := by
  intro i s c
  refine ⟨_, _, exec_eq_emitTimes i s, exec_eq_emitTimes i _, ?_⟩
  rw [DecState.emitTimes_withChannels]
  rfl

/-- Settles O39: the emission the encoder selected emits its pixel once. -/
theorem emissionReconstructsPixel : Obligations.EmissionReconstructsPixel := by
  intro e px s _ hprev hslot
  refine ⟨_, exec_of_ne_run (emission_ne_run e px) s, ?_⟩
  rw [hprev, emittedPixel_emission e px (hslot.trans ·)]
  exact ⟨rfl, rfl, cacheGet_store_same s.dec.cache px⟩

end Sys2Proof.Machine
end

section
/-! The steps of the pixel pass: fetch, truncation and the end of the pass (R200 to R203, R211, R212). -/

namespace Sys2Proof.Machine

section
variable {s : State}

/-! ### The fetch (R202, R203) -/

/-- The fetch is one read, cut at `DEC_PEND`. -/
theorem fetchInstr_of_read {d : DecState} {b0 : Byte} (h : d.inMem.read d.rp = some b0) :
    fetchInstr d = d.inMem.readBytes d.rp (min (classify b0).length (d.pend - d.rp)) := by
  simp only [fetchInstr, h]

/-- The bytes of a well-formed instruction begin with a byte of a class of that length (R97, R98). -/
theorem encode_eq_cons {i : Instr} (h : i.WellFormed) :
    ∃ b0 tl, encode i = b0 :: tl ∧ (classify b0).length = i.length := by
  obtain ⟨b0, tl, henc⟩ := List.exists_cons_of_length_pos (l := encode i) (by
    rw [encode_length]; exact i.length_range.1)
  have hd := decodeInvertsEncode i [] h
  rw [List.append_nil, henc] at hd
  exact ⟨b0, tl, henc, (decode_cons_ok hd).1.symm⟩

/-- An instruction that stands at `DEC_RP` and ends within the payload is what the fetch takes. -/
theorem fetchInstr_of_readBytes {d : DecState} {i : Instr} (hwf : i.WellFormed) (hend : d.rp + i.length ≤ d.pend)
    (h : d.inMem.readBytes d.rp i.length = some (encode i)) : fetchInstr d = some (encode i) := by
  obtain ⟨b0, tl, henc, hlen⟩ := encode_eq_cons hwf
  have hread : d.inMem.read d.rp = some b0 := by
    have := Memory.read_of_readBytes h i.length_range.1
    rwa [henc] at this
  rw [fetchInstr_of_read hread, hlen, Nat.min_eq_left (by omega), h]

/-! ### One move (R201 to R203, R212) -/

theorem decMove_of_decode {bs rest : List Byte} {i : Instr} (hb : s.dec.status = .busy) (hm : decMore s.dec)
    (hf : fetchInstr s.dec = some bs) (hd : decode bs = .ok (i, rest)) : decMove s = exec i s := by
  simp only [decMove, if_pos hb, if_pos hm, decInstr, hf, hd]

theorem decMove_of_readBytes {i : Instr} (hb : s.dec.status = .busy) (hpo : s.dec.po < s.dec.quota)
    (hwf : i.WellFormed) (hend : s.dec.rp + i.length ≤ s.dec.pend)
    (h : s.dec.inMem.readBytes s.dec.rp i.length = some (encode i)) : decMove s = exec i s := by
  have hpos := i.length_range.1
  have hd := decodeInvertsEncode i [] hwf
  rw [List.append_nil] at hd
  exact decMove_of_decode hb ⟨by omega, hpo⟩ (fetchInstr_of_readBytes hwf hend h) hd

/-- The bytes up to `DEC_PEND` are too few for the class of the first, so they decode to nothing (R203). -/
theorem decMove_of_truncated {b0 : Byte} (hb : s.dec.status = .busy) (hm : decMore s.dec)
    (hread : s.dec.inMem.read s.dec.rp = some b0) (hcut : s.dec.pend < s.dec.rp + (classify b0).length)
    (hplaced : ∀ a, s.dec.rp ≤ a → a < s.dec.pend → (s.dec.inMem.read a).isSome) :
    decMove s = .next { s with dec := s.dec.skipTruncated } := by
  have hrp := hm.1
  obtain ⟨bs, hbs⟩ := Memory.readBytes_isSome (m := s.dec.inMem) (a := s.dec.rp) (n := s.dec.pend - s.dec.rp)
    fun x hlo hhi => hplaced x hlo (by omega)
  have hf : fetchInstr s.dec = some bs := by
    rw [fetchInstr_of_read hread, Nat.min_eq_right (by omega), hbs]
  obtain ⟨b, tl, rfl, hread', hlen⟩ := fetchInstr_eq_some hf hrp
  obtain rfl : b0 = b := Option.some_inj.1 (hread.symm.trans hread')
  have hd := (decodeFailsOnlyOnMissingBytes.2 b0 tl).1 (by omega)
  simp only [decMove, if_pos hb, if_pos hm, decInstr, hf, hd]

theorem decMove_finish (hb : s.dec.status = .busy) (hm : ¬ decMore s.dec) :
    decMove s = .next { s with dec := s.dec.finish } := by
  rw [decMove, if_pos hb, if_neg hm]

/-! ### A placed instruction (log 6) -/

/-- Of the bytes written, the first ones are read back (R67). -/
theorem Memory.readBytes_writeBytes_append {m : Memory} {a : Nat} {bs cs : List Byte} :
    (m.writeBytes a (bs ++ cs)).readBytes a bs.length = some bs := by
  have := readBytes_part (readBytes_writeBytes (m := m) (a := a) (bs := bs ++ cs)) (k := 0) (l := bs.length) (by simp)
  rwa [Nat.add_zero, List.drop_zero, List.take_left] at this

/-- Where `placeInstr` puts its bytes the loop runs: BUSY, the payload past the bytes, the quota not met. -/
theorem placeInstr_spec (bs : List Byte) (d : DecState) :
    (placeInstr bs d).status = .busy ∧ (placeInstr bs d).rp = d.rp ∧
    (placeInstr bs d).inMem = d.inMem.writeBytes d.rp bs ∧ d.rp + bs.length ≤ (placeInstr bs d).pend ∧
    (placeInstr bs d).po < (placeInstr bs d).quota := by
  have hpend : d.rp + bs.length ≤ max d.pend (d.rp + bs.length) := Nat.le_max_right _ _
  have hquota : 0 < (62 : Word32).toNat * (1 : Word32).toNat := by decide
  unfold placeInstr
  dsimp only
  split
  · split
    · next hpo => exact ⟨rfl, rfl, rfl, hpend, hpo⟩
    · exact ⟨rfl, rfl, rfl, hpend, hquota⟩
  · split
    · next hpo => exact ⟨rfl, rfl, rfl, hpend, hpo⟩
    · exact ⟨rfl, rfl, rfl, hpend, hquota⟩

end

/-! ### The statements on the decoder's steps -/

/-- Settles O18: DEC's move on what the fetch decodes to. -/
theorem stepRunsDecodedInstruction : Obligations.StepRunsDecodedInstruction := by
  intro s bs rest i ha hb hrp hpo hf hd
  rw [step_dec ha]
  exact decMove_of_decode (s := popTurn s) hb ⟨hrp, hpo⟩ hf hd

/-- Settles O19: the fetch takes exactly the instruction's bytes, which decode to it. -/
theorem stepRunsInstructionAtReadPointer : Obligations.StepRunsInstructionAtReadPointer := by
  intro s i ha hb hpo hwf hend h
  rw [encode_length] at hend h
  rw [step_dec ha]
  exact decMove_of_readBytes (s := popTurn s) hb hpo hwf hend h

/-- Settles O20: the word begins with the bytes of `i`, and they stand at `DEC_RP` of a decoder in its loop. -/
theorem fetchWordRunsNext : Obligations.FetchWordRunsNext := by
  intro s nbits w i h
  obtain ⟨rest, hd⟩ : ∃ rest, decode (tableBytes nbits w) = .ok (i, rest) := by
    unfold decodeTableWord at h
    split at h
    · next i' rest hd => cases h; exact ⟨rest, hd⟩
    · cases h
  obtain ⟨hwf, hbytes⟩ := encodeInvertsDecode _ _ _ hd
  obtain ⟨hb, hrp, hmem, hpend, hpo⟩ := placeInstr_spec (tableBytes nbits w) s.dec
  have hlen : i.length + rest.length = (tableBytes nbits w).length := by
    rw [← hbytes, List.length_append, encode_length]
  have hread : (placeInstr (tableBytes nbits w) s.dec).inMem.readBytes s.dec.rp i.length = some (encode i) := by
    rw [hmem, ← hbytes, ← encode_length]
    exact Memory.readBytes_writeBytes_append
  rw [step_dec rfl]
  refine decMove_of_readBytes (s := popTurn (s.withFetchWord nbits w)) hb hpo hwf ?_ ?_
  · show (placeInstr (tableBytes nbits w) s.dec).rp + i.length ≤ _
    rw [hrp]
    exact (by omega : s.dec.rp + i.length ≤ s.dec.rp + (tableBytes nbits w).length).trans hpend
  · show (placeInstr (tableBytes nbits w) s.dec).inMem.readBytes (placeInstr _ s.dec).rp i.length = _
    rwa [hrp]

/-- Settles O21: the bytes up to `DEC_PEND` are fetched and decode to nothing. -/
theorem truncatedInstructionIsSkipped : Obligations.TruncatedInstructionIsSkipped := by
  intro s b0 ha hb hrp hpo hread hcut hplaced
  rw [step_dec ha]
  exact decMove_of_truncated (s := popTurn s) hb ⟨hrp, hpo⟩ hread hcut hplaced

/-- Settles O22: the two branches of a move in the loop, told apart by the class's length, which is at least 1. -/
theorem readPointerAdvancesByLength : Obligations.ReadPointerAdvancesByLength := by
  intro s t ha hb hrp hpo hstep
  rw [step_dec ha] at hstep
  rcases decMove_cases hstep with ⟨hn, -⟩ | ⟨-, hn, -⟩ | ⟨-, -, b0, hread, hmove⟩
  · exact absurd hb hn
  · exact absurd ⟨hrp, hpo⟩ hn
  · have hpos := (classify b0).length_range.1
    refine ⟨b0, hread, ?_⟩
    rcases hmove with ⟨hcut, rfl⟩ | ⟨hall, k, px, rfl, -⟩
    · exact ⟨fun hall => absurd hcut (Nat.not_lt.2 hall), fun _ => rfl, hrp⟩
    · have hadv : ((s.dec.emitTimes k px).advance (classify b0).length).rp = s.dec.rp + (classify b0).length := by
        rw [DecState.advance_rp, DecState.emitTimes_rp]
      exact ⟨fun _ => hadv, fun hcut => absurd hcut (Nat.not_lt.2 hall), hadv ▸ Nat.lt_add_of_pos_right hpos⟩

/-- Settles O23: outside the loop DEC's move is the final count check. -/
theorem passEndsByPixelCount : Obligations.PassEndsByPixelCount := by
  intro s ha hb hm
  have hstep : step s = .next { popTurn s with dec := s.dec.finish } :=
    (step_dec ha).trans (decMove_finish (s := popTurn s) hb hm)
  rcases decFinish_cases s.dec with ⟨hlt, hf⟩ | ⟨hle, hf⟩ <;> rw [hstep, hf]
  · exact ⟨fun _ => rfl, fun hle => absurd hlt (Nat.not_lt.2 hle)⟩
  · exact ⟨fun hlt => absurd hlt (Nat.not_lt.2 hle), fun _ => rfl⟩

end Sys2Proof.Machine
end

section
/-! One turn of the loop of R215 in the words of the parser and the instructions. -/

namespace Sys2Proof.Machine

/-! ### Emission in the pass (R209, R210) -/

section
variable (c : Byte) (k : Nat) (px : Pixel) (p : Whole.DecPass)

theorem wholeEmitTimes_rp : (Whole.emitTimes c k px p).rp = p.rp := by
  induction k generalizing p with
  | zero => rfl
  | succ k ih => exact ih (Whole.emit c px p)

theorem wholeEmitTimes_po : (Whole.emitTimes c k px p).po = p.po + k := by
  induction k generalizing p with
  | zero => rfl
  | succ k ih => exact (ih (Whole.emit c px p)).trans (Nat.add_right_comm p.po 1 k)

theorem wholeEmitTimes_out :
    (Whole.emitTimes c k px p).out = p.out ++ (List.replicate k (DecState.pixelBytes c px)).flatten := by
  induction k generalizing p with
  | zero => exact (List.append_nil _).symm
  | succ k ih =>
    refine (ih (Whole.emit c px p)).trans ?_
    rw [List.replicate_succ, List.flatten_cons, ← List.append_assoc]
    rfl

theorem wholeEmitTimes_succ :
    (Whole.emitTimes c (k + 1) px p).prev = px ∧ (Whole.emitTimes c (k + 1) px p).cache = cacheStore p.cache px := by
  induction k generalizing p with
  | zero => exact ⟨rfl, rfl⟩
  | succ k ih =>
    obtain ⟨hprev, hcache⟩ := ih (Whole.emit c px p)
    exact ⟨hprev, hcache.trans (cacheStore_store p.cache px)⟩

end

/-! ### One instruction -/

/-- One instruction on the variables of the pass, as `exec_eq_emitTimes` has it on the engine (R204 to R211). -/
def passExec (c : Byte) (quota : Nat) (i : Instr) (p : Whole.DecPass) : Whole.DecPass :=
  Whole.skip i.length (Whole.emitTimes c (emittedCount (quota - p.po) i) (emittedPixel p.prev p.cache i) p)

/-- The tests of the loop on a first byte are those of the parser (R98). -/
theorem opcodeTests_eq {α : Type} (b : Byte) (rgb rgba index diff luma run : α) :
    (if b = 0xFE then rgb
      else if b = 0xFF then rgba
      else if b &&& 0xC0 = 0x00 then index
      else if b &&& 0xC0 = 0x40 then diff
      else if b &&& 0xC0 = 0x80 then luma
      else run) =
    OpClass.casesOn (classify b) rgb rgba index diff luma run := by
  unfold classify
  split_ifs <;> rfl

/-- The low six bits that the loop takes its fields from (R215). -/
theorem lowBits_toNat (b : Byte) : (b &&& 0x3F).toNat = b.toNat % 64 := by
  revert b
  decide

/-- The loop's field of six bits is the parser's. -/
theorem lowBits_eq_field (b : Byte) : (b &&& 0x3F).toNat = field b 0 6 := by
  rw [lowBits_toNat, field_eq, Nat.pow_zero, Nat.div_one]
  rfl

/-- A field within the low six bits is the parser's. -/
theorem lowBits_field (b : Byte) {lo w : Nat} (h : lo + w ≤ 6) :
    (b &&& 0x3F).toNat / 2 ^ lo % 2 ^ w = field b lo w := by
  have hsplit : 64 = 2 ^ lo * 2 ^ (6 - lo) := by rw [← pow_add, Nat.add_sub_cancel' (by omega)]; rfl
  rw [lowBits_toNat, field_eq, hsplit, Nat.mod_mul_right_div_self, Nat.mod_mod_of_dvd _ (pow_dvd_pow 2 (by omega))]

/-- A slot by its number, as the loop reads it from the list of slots. -/
theorem cache_getD_eq (cache : Cache) {n : Nat} (h : n < 64) (px : Pixel) :
    cache.toList.getD n px = cacheGet cache (Fin.ofNat 64 n) := by
  have : n % 64 = n := Nat.mod_eq_of_lt h
  simp [cacheGet, h, this]

/-! ### One turn (R201 to R203) -/

section
variable {bs tl : List Byte} {b0 : Byte} {c : Byte} {pend quota : Nat} {p : Whole.DecPass}

/-- Bytes of the input from `rp` on, as the loop reads them. -/
theorem getD_of_drop (h : bs.drop p.rp = b0 :: tl) (j : Nat) :
    bs.getD (p.rp + j) 0 = (b0 :: tl).getD j 0 := by
  rw [← h, List.getD_eq_getElem?_getD, List.getD_eq_getElem?_getD, List.getElem?_drop]

/-- Where the bytes from `rp` on decode to an instruction that ends within the payload, the turn runs it, class by
class (R204 to R209). -/
theorem decodeStep_of_decode {i : Instr} {rest : List Byte} (hd : decode (bs.drop p.rp) = .ok (i, rest))
    (hend : p.rp + i.length ≤ pend) : Whole.decodeStep bs c pend quota p = passExec c quota i p := by
  rcases h : bs.drop p.rp with _ | ⟨b0, tl⟩ <;> rw [h] at hd
  · cases hd
  have h0 : bs.getD p.rp 0 = b0 := getD_of_drop h 0
  unfold Whole.decodeStep
  simp only [h0, getD_of_drop h]
  rw [opcodeTests_eq]
  cases hc : classify b0 with
  | rgb =>
    obtain rfl : b0 = 0xFE := byte_ext ((classify_eq_rgb_iff b0).1 hc)
    rcases tl with _ | ⟨b1, _ | ⟨b2, _ | ⟨b3, t⟩⟩⟩ <;> cases hd
    exact if_neg (Nat.not_lt.2 hend)
  | rgba =>
    obtain rfl : b0 = 0xFF := byte_ext ((classify_eq_rgba_iff b0).1 hc)
    rcases tl with _ | ⟨b1, _ | ⟨b2, _ | ⟨b3, _ | ⟨b4, t⟩⟩⟩⟩ <;> cases hd
    exact if_neg (Nat.not_lt.2 hend)
  | index =>
    cases (decode_index tl hc).symm.trans hd
    dsimp only
    rw [lowBits_eq_field, cache_getD_eq _ (field_lt b0 0 6)]
    rfl
  | diff =>
    cases (decode_diff tl hc).symm.trans hd
    rw [lowBits_field b0 (by decide), lowBits_field b0 (by decide), lowBits_field b0 (by decide)]
    simp only [add_sub_assoc]
    rfl
  | luma =>
    rcases tl with _ | ⟨b1, t⟩
    · simp [decode, hc] at hd
    cases (decode_luma t hc b1).symm.trans hd
    simp only [lowBits_eq_field, add_sub_assoc, add_assoc]
    refine (if_neg (Nat.not_lt.2 hend)).trans ?_
    simp only [passExec, emittedPixel, field_eq]
    rfl
  | run =>
    cases (decode_run tl hc).symm.trans hd
    dsimp only
    rw [lowBits_eq_field]
    rfl

/-- Where the class of the first byte needs more bytes than the payload has, the turn only moves `rp` (R203). -/
theorem decodeStep_of_truncated (h : bs.drop p.rp = b0 :: tl) (hrp : p.rp < pend)
    (hcut : pend < p.rp + (classify b0).length) : Whole.decodeStep bs c pend quota p = { p with rp := pend } := by
  have h0 : bs.getD p.rp 0 = b0 := getD_of_drop h 0
  unfold Whole.decodeStep
  simp only [h0, opcodeTests_eq]
  have one : (classify b0).length ≠ 1 := by omega
  cases hc : classify b0 <;> rw [hc] at hcut one
  case rgb => exact if_pos hcut
  case rgba => exact if_pos hcut
  case luma => exact if_pos hcut
  case index => exact absurd rfl one
  case diff => exact absurd rfl one
  case run => exact absurd rfl one

theorem decodeStep_of_encode {i : Instr} {rest : List Byte} (hwf : i.WellFormed)
    (h : bs.drop p.rp = encode i ++ rest) (hend : p.rp + i.length ≤ pend) :
    Whole.decodeStep bs c pend quota p = passExec c quota i p :=
  decodeStep_of_decode (h ▸ decodeInvertsEncode i rest hwf) hend

/-- Everything a turn can do with payload left: skip a truncated instruction, or run a complete one (R201 to R203). -/
theorem decodeStep_cases (hrp : p.rp < pend) (hpend : pend ≤ bs.length) :
    (pend < p.rp + (classify (bs.getD p.rp 0)).length ∧
      Whole.decodeStep bs c pend quota p = { p with rp := pend }) ∨
    ∃ i rest, i.WellFormed ∧ bs.drop p.rp = encode i ++ rest ∧ p.rp + i.length ≤ pend ∧
      Whole.decodeStep bs c pend quota p = passExec c quota i p := by
  obtain ⟨b0, tl, hdrop⟩ := List.exists_cons_of_length_pos (l := bs.drop p.rp) (by rw [List.length_drop]; omega)
  have h0 : bs.getD p.rp 0 = b0 := getD_of_drop hdrop 0
  rw [h0]
  by_cases hcut : pend < p.rp + (classify b0).length
  · exact .inl ⟨hcut, decodeStep_of_truncated hdrop hrp hcut⟩
  · have htl := congrArg List.length hdrop
    rw [List.length_drop, List.length_cons] at htl
    obtain ⟨i, hd⟩ := (decodeFailsOnlyOnMissingBytes.2 b0 tl).2 (by omega)
    have hlen := (decode_cons_ok hd).1
    obtain ⟨hwf, hbytes⟩ := encodeInvertsDecode _ _ _ hd
    have hdrop' := hdrop.trans hbytes.symm
    exact .inr ⟨i, _, hwf, hdrop', by omega, decodeStep_of_encode hwf hdrop' (by omega)⟩

end

end Sys2Proof.Machine
end

section
/-! The decoder engine simulates the pass of R215: one turn of the loop is one move (R201 to R211). -/

namespace Sys2Proof.Machine

/-- The engine holds the variables of the pass: the registers, and `out` in `DEC_OUT` below the next pixel. -/
structure DecSimulates (p : Whole.DecPass) (d : DecState) : Prop where
  rp : d.rp = p.rp
  po : d.po = p.po
  prev : d.prev = p.prev
  cache : d.cache = p.cache
  length : p.out.length = p.po * d.channels.toNat
  out : d.outMem.readBytes 0 p.out.length = some p.out

section
variable {p : Whole.DecPass} {d : DecState}

/-- The commuting diagram of `EMIT` (R210): the bytes go right after those already written. -/
theorem DecSimulates.emit (h : DecSimulates p d) (hc : channelsOk d.channels) (px : Pixel) :
    DecSimulates (Whole.emit d.channels px p) (d.emit px) where
  rp := h.rp
  po := congrArg (· + 1) h.po
  prev := rfl
  cache := congrArg (cacheStore · px) h.cache
  length := by
    show (p.out ++ DecState.pixelBytes d.channels px).length = (p.po + 1) * d.channels.toNat
    rw [List.length_append, DecState.pixelBytes_length hc, h.length, Nat.succ_mul]
  out := by
    show (d.outMem.writeBytes d.outAddr (DecState.pixelBytes d.channels px)).readBytes 0
      (p.out ++ DecState.pixelBytes d.channels px).length = some (p.out ++ DecState.pixelBytes d.channels px)
    have haddr : d.outAddr = p.out.length := by rw [DecState.outAddr, h.po, h.length]
    rw [List.length_append, haddr]
    refine Memory.readBytes_append ?_ ?_
    · rw [Memory.readBytes_writeBytes_outside (by omega)]
      exact h.out
    · rw [Nat.zero_add]
      exact Memory.readBytes_writeBytes

theorem DecSimulates.emitTimes (h : DecSimulates p d) (hc : channelsOk d.channels) (k : Nat) (px : Pixel) :
    DecSimulates (Whole.emitTimes d.channels k px p) (d.emitTimes k px) := by
  induction k generalizing p d with
  | zero => exact h
  | succ k ih => exact ih (h.emit hc px) hc

/-- The commuting diagram of one instruction (R204 to R211). -/
theorem DecSimulates.exec (h : DecSimulates p d) (hc : channelsOk d.channels) (i : Instr) :
    DecSimulates (passExec d.channels d.quota i p)
      ((d.emitTimes (emittedCount (d.quota - d.po) i) (emittedPixel d.prev d.cache i)).advance i.length) := by
  rw [h.po, h.prev, h.cache]
  obtain ⟨hrp, hpo, hprev, hcache, hlength, hout⟩ :=
    h.emitTimes hc (emittedCount (d.quota - p.po) i) (emittedPixel p.prev p.cache i)
  exact ⟨congrArg (· + i.length) hrp, hpo, hprev, hcache, hlength, hout⟩

theorem passExec_rp (c : Byte) (quota : Nat) (i : Instr) (p : Whole.DecPass) :
    (passExec c quota i p).rp = p.rp + i.length :=
  congrArg (· + i.length) (wholeEmitTimes_rp c _ _ p)

/-- Every turn moves `rp` on (R211). -/
theorem decodeStep_rp_gt {bs : List Byte} {c : Byte} {pend quota : Nat} (hrp : p.rp < pend)
    (hpend : pend ≤ bs.length) : p.rp < (Whole.decodeStep bs c pend quota p).rp := by
  rcases decodeStep_cases hrp hpend with ⟨-, hs⟩ | ⟨i, rest, -, -, -, hs⟩ <;> rw [hs]
  · exact hrp
  · rw [passExec_rp]
    exact Nat.lt_add_of_pos_right i.length_range.1

end

/-! ### Moves in the loop -/

/-- An engine in the pass that began at `d0`, with the variables `p`; the other registers are still those of `d0`. -/
structure AtInstr (d0 : DecState) (p : Whole.DecPass) (d : DecState) : Prop where
  inPass : d.InPass
  sim : DecSimulates p d
  frame : { d with prev := d0.prev, cache := d0.cache, po := d0.po, rp := d0.rp, outMem := d0.outMem } = d0

section
variable {d0 d : DecState} {bs : List Byte} {p : Whole.DecPass}

theorem AtInstr.pend (h : AtInstr d0 p d) : d.pend = d0.pend := by rw [← h.frame]

theorem AtInstr.channels (h : AtInstr d0 p d) : d.channels = d0.channels := by rw [← h.frame]

theorem AtInstr.quota (h : AtInstr d0 p d) : d.quota = d0.quota := by rw [← h.frame]; rfl

theorem AtInstr.status (h : AtInstr d0 p d) : d.status = d0.status := by rw [← h.frame]

/-- The input space is still the one the pass began with (R43). -/
theorem AtInstr.source (h : AtInstr d0 p d) (hread : d0.inMem.readBytes 0 d0.inLen = some bs) :
    d.inMem.readBytes 0 d.inLen = some bs := by
  rw [← hread, ← congrArg DecState.inMem h.frame, ← congrArg DecState.inLen h.frame]

/-- The payload ends within the input (R36). -/
theorem AtInstr.pend_le (h : AtInstr d0 p d) (hread : d0.inMem.readBytes 0 d0.inLen = some bs) :
    d0.pend ≤ bs.length := by
  rw [← h.pend, Memory.length_of_readBytes (h.source hread)]
  exact h.inPass.rp_range.2.2

theorem AtInstr.skipTruncated (h : AtInstr d0 p d) : AtInstr d0 { p with rp := d0.pend } d.skipTruncated where
  inPass := h.inPass.skipTruncated
  sim := { h.sim with rp := h.pend }
  frame := h.frame

theorem AtInstr.exec (h : AtInstr d0 p d) (hpo : d.po < d.quota) {i : Instr} (hend : d.rp + i.length ≤ d.pend) :
    AtInstr d0 (passExec d0.channels d0.quota i p)
      ((d.emitTimes (emittedCount (d.quota - d.po) i) (emittedPixel d.prev d.cache i)).advance i.length) where
  inPass := by
    have := emittedCount_le (Nat.sub_pos_of_lt hpo) i
    exact h.inPass.emitTimes_advance _ (by omega) hend
  sim := by
    rw [← h.channels, ← h.quota]
    exact h.sim.exec h.inPass.channels_ok i
  frame := by
    rw [DecState.emitTimes_frame]
    exact h.frame

/-- One move in the loop is one turn of it (R201 to R203). -/
theorem AtInstr.decMove {s : State} (h : AtInstr d0 p s.dec) (hb : d0.status = .busy)
    (hread : d0.inMem.readBytes 0 d0.inLen = some bs) (hm : decMore s.dec) :
    ∃ d, Machine.decMove s = .next { s with dec := d } ∧
      AtInstr d0 (Whole.decodeStep bs d0.channels d0.pend d0.quota p) d := by
  have hsource := h.source hread
  have hbusy := h.status.trans hb
  obtain ⟨-, -, hpend⟩ := h.inPass.rp_range
  have hrp : p.rp < d0.pend := by rw [← h.pend, ← h.sim.rp]; exact hm.1
  rcases decodeStep_cases hrp (h.pend_le hread) with ⟨hcut, hs⟩ | ⟨i, rest, hwf, hdrop, hend, hs⟩ <;> rw [hs]
  · rw [← h.pend, ← h.sim.rp] at hcut
    have hfirst := Memory.read_of_readBytes hsource (hm.1.trans_le hpend)
    rw [Nat.zero_add] at hfirst
    exact ⟨_, decMove_of_truncated hbusy hm hfirst hcut fun a _ ha =>
      Memory.placed_of_readBytes hsource a (ha.trans_le hpend), h.skipTruncated⟩
  · rw [← h.pend, ← h.sim.rp] at hend
    have hbytes := Memory.readBytes_part hsource (k := s.dec.rp) (l := i.length) (by omega)
    rw [Nat.zero_add, h.sim.rp, hdrop, ← encode_length, List.take_left, ← h.sim.rp, encode_length] at hbytes
    exact ⟨_, (decMove_of_readBytes hbusy hm.2 hwf hend hbytes).trans (exec_eq_emitTimes i s), h.exec hm.2 hend⟩

/-! ### The run of the pass -/

/-- With no schedule a BUSY DEC moves. -/
theorem step_eq_decMove {s : State} (ht : s.turns = []) (hb : s.dec.status = .busy) : step s = Machine.decMove s := by
  have ha : nextAgent s = .dec := by simp [nextAgent, ht, hb]
  have hpop : popTurn s = s := by rw [popTurn, ht, List.tail_nil, ← ht]
  rw [step_dec ha, hpop]

theorem AtInstr.decMore_iff (h : AtInstr d0 p d) : decMore d ↔ p.rp < d0.pend ∧ p.po < d0.quota := by
  rw [decMore, h.sim.rp, h.sim.po, h.pend, h.quota]

/-- Outside the loop one step ends the pass (R212). -/
theorem AtInstr.run_finish {s : State} (h : AtInstr d0 p s.dec) (hb : d0.status = .busy) (ht : s.turns = [])
    (hm : ¬ decMore s.dec) : Host.Core.run core 1 s = .next { s with dec := s.dec.finish } :=
  have hbusy := h.status.trans hb
  run_succ_of_step 0 ((step_eq_decMove ht hbusy).trans (decMove_finish hbusy hm))

/-- The rest of the pass: at most one step per byte left, as many as the loop makes turns, and one for the end
(R291). -/
theorem run_decode_pass (hb : d0.status = .busy) (hread : d0.inMem.readBytes 0 d0.inLen = some bs) (n : Nat)
    {s : State} (ht : s.turns = []) (h : AtInstr d0 p s.dec) (hn : d0.pend ≤ p.rp + n) :
    ∃ k d, k ≤ n + 1 ∧ Host.Core.run core k s = .next { s with dec := d.finish } ∧
      AtInstr d0 (Whole.decodeLoop bs d0.channels d0.pend d0.quota n p) d := by
  induction n generalizing p s with
  | zero =>
    have hend : ¬ decMore s.dec := by rw [h.decMore_iff]; omega
    exact ⟨1, s.dec, le_rfl, h.run_finish hb ht hend, h⟩
  | succ n ih =>
    by_cases hm : decMore s.dec
    · obtain ⟨d, hmove, hnext⟩ := h.decMove hb hread hm
      have hstep := (step_eq_decMove ht (h.status.trans hb)).trans hmove
      have hmore := h.decMore_iff.1 hm
      have hgrow := decodeStep_rp_gt (c := d0.channels) (quota := d0.quota) hmore.1 (h.pend_le hread)
      obtain ⟨k, u, hk, hrun, hend⟩ := ih (s := { s with dec := d }) ht hnext (by omega)
      rw [Whole.decodeLoop, if_pos hmore]
      exact ⟨k + 1, u, by omega, (run_succ_of_step k hstep).trans hrun, hend⟩
    · rw [Whole.decodeLoop, if_neg (h.decMore_iff.not.1 hm)]
      exact ⟨1, s.dec, by omega, h.run_finish hb ht hm, h⟩

end

end Sys2Proof.Machine
end

section
/-! The whole decode operation, step by step, and its one-function form (R200 to R215). -/

namespace Sys2Proof.Machine

/-! ### The one-function form behind its checks (R215) -/

/-- The width in the header of a stream (R136). -/
def headerWidth (bs : List Byte) : Word32 := BitVec.ofNat 32 (fromBe ((bs.drop 4).take 4))

/-- The height in the header of a stream (R136). -/
def headerHeight (bs : List Byte) : Word32 := BitVec.ofNat 32 (fromBe ((bs.drop 8).take 4))

/-- The pixels that the header asks for (R38). -/
def headerQuota (bs : List Byte) : Nat := (headerWidth bs).toNat * (headerHeight bs).toNat

/-- The variables of the pass before its first instruction (R200, R281). -/
def decPassStart : Whole.DecPass where
  rp := 14
  po := 0
  prev := Config.prevInit
  cache := emptyCache
  out := []

/-- The variables after the loop (R201). -/
def decodedPass (bs : List Byte) : Whole.DecPass :=
  Whole.decodeLoop bs (bs.getD 12 0) (Whole.payloadEnd bs) (headerQuota bs) (Whole.payloadEnd bs) decPassStart

section
variable {bs : List Byte}

/-- Behind length and magic the channel count is checked, then the count of the pass (R133, R212). -/
theorem wholeDecode_of_magic (hl : 22 ≤ bs.length) (hm : bs.take 4 = Config.magic) :
    Whole.decode bs =
      if bs.getD 12 0 ≠ 3 ∧ bs.getD 12 0 ≠ 4 then .error .channels
      else if (decodedPass bs).po < headerQuota bs then .error .insufficient
      else .ok ⟨(decodedPass bs).out, headerWidth bs, headerHeight bs, bs.getD 12 0, bs.getD 13 0⟩ :=
  (if_neg (Nat.not_lt.2 hl)).trans (if_neg (not_not.2 hm))

theorem wholeDecode_of_header (hl : 22 ≤ bs.length) (hm : bs.take 4 = Config.magic) (hc : channelsOk (bs.getD 12 0)) :
    Whole.decode bs =
      if (decodedPass bs).po < headerQuota bs then .error .insufficient
      else .ok ⟨(decodedPass bs).out, headerWidth bs, headerHeight bs, bs.getD 12 0, bs.getD 13 0⟩ :=
  (wholeDecode_of_magic hl hm).trans (if_neg (by rwa [← channelsOk_iff_not, not_not]))

/-- The function of R215 makes the checks of the synchroniser in the same order (R133). -/
theorem reportsFirstViolation_cases {t : DecState} (h : ReportsFirstViolation bs t) :
    (∃ c, Whole.decode bs = .error c ∧ t.status = .error ∧ t.err = some c) ∨
    (22 ≤ bs.length ∧ bs.take 4 = Config.magic ∧ channelsOk (bs.getD 12 0) ∧ t.status = .busy) := by
  unfold ReportsFirstViolation at h
  by_cases hl : bs.length < 22
  · rw [if_pos hl] at h
    exact .inl ⟨_, if_pos hl, h⟩
  rw [if_neg hl] at h
  by_cases hm : bs.take 4 = Config.magic
  · rw [if_neg (not_not.2 hm)] at h
    by_cases hc : channelsOk (bs.getD 12 0)
    · rw [if_neg (by rwa [← channelsOk_iff_not, not_not])] at h
      exact .inr ⟨Nat.le_of_not_lt hl, hm, hc, h.1⟩
    · rw [channelsOk_iff_not] at hc
      rw [if_pos hc] at h
      exact .inl ⟨_, (wholeDecode_of_magic (Nat.le_of_not_lt hl) hm).trans (if_pos hc), h⟩
  · rw [if_pos hm] at h
    exact .inl ⟨_, (if_neg hl).trans (if_pos hm), h⟩

/-! ### The payload's end (R137) -/

/-- A window of a placed input is read in the memory as it is taken from the list. -/
theorem Memory.readBytes_window {m : Memory} {n : Nat} (h : m.readBytes 0 n = some bs) {q l : Nat} (hq : q + l ≤ n) :
    m.readBytes q l = some ((bs.drop q).take l) := by
  have := readBytes_part h hq
  rwa [Nat.zero_add] at this

theorem payloadEnd_of_scan_found {m : Memory} {n q : Nat} (h : m.readBytes 0 n = some bs) (hn : 22 ≤ n)
    (hs : scanFrom m (n - 21) 14 = .found q) : Whole.payloadEnd bs = q := by
  have hlen := Memory.length_of_readBytes h
  have window {r : Nat} (hr : r < 14 + (n - 21)) := Memory.readBytes_window h (q := r) (l := 8) (by omega)
  obtain ⟨hlo, hhi, hmatch, hfirst⟩ := scanFrom_found hs
  have hfind : (List.range' 14 (bs.length - 21)).find? (fun r => (bs.drop r).take 8 = Config.trailer) = some q := by
    refine List.find?_range'_eq_some.2 ⟨?_, ?_, fun r hr hrq => ?_⟩
    · rw [window hhi] at hmatch
      simpa using hmatch
    · rw [List.mem_range'_1, hlen]
      exact ⟨hlo, hhi⟩
    · have := hfirst r hr hrq
      rw [window (hrq.trans hhi)] at this
      simpa using this
  exact congrArg (Option.getD · _) hfind

theorem payloadEnd_of_scan_notFound {m : Memory} {n : Nat} (h : m.readBytes 0 n = some bs) (hn : 22 ≤ n)
    (hs : scanFrom m (n - 21) 14 = .notFound) : Whole.payloadEnd bs = n := by
  have hlen := Memory.length_of_readBytes h
  have hfind : (List.range' 14 (bs.length - 21)).find? (fun r => (bs.drop r).take 8 = Config.trailer) = none := by
    refine List.find?_eq_none.2 fun r hr => ?_
    obtain ⟨hlo, hhi⟩ := List.mem_range'_1.1 hr
    have := scanFrom_notFound hs hlo (by omega)
    rw [Memory.readBytes_window h (by omega)] at this
    simpa using this
  exact (congrArg (Option.getD · _) hfind).trans hlen

/-! ### The start (R140, R200) -/

/-- What a start that passes leaves in the registers that the pass does not write (R136, R137). -/
structure StartedOn (bs : List Byte) (t : DecState) : Prop where
  busy : t.status = .busy
  source : t.inMem.readBytes 0 t.inLen = some bs
  width : t.width = headerWidth bs
  height : t.height = headerHeight bs
  channels : t.channels = bs.getD 12 0
  colorspace : t.colorspace = bs.getD 13 0
  pend : t.pend = Whole.payloadEnd bs
  begins : AtInstr t decPassStart t

theorem startedOn_of_start {d t : DecState} (hread : d.inMem.readBytes 0 d.inLen = some bs) (h : d.start = .next t)
    (hb : t.status = .busy) : StartedOn bs t := by
  rcases decStart_cases h with ⟨u, hu, rfl⟩ | ⟨-, herror, -⟩
  · obtain ⟨w, hh, hw, hhh, hc, hcs, hwidth, hheight⟩ := hu.header
    have hlen : 22 ≤ d.inLen := hu.len
    rw [Memory.readBytes_window hread (by omega)] at hw hhh
    have byte {a : Nat} (ha : a < d.inLen) : d.inMem.read a = some (bs.getD a 0) := by
      have := Memory.read_of_readBytes hread ha
      rwa [Nat.zero_add] at this
    exact {
      busy := hb
      source := by
        rw [DecState.init_inMem, DecState.init_inLen, hu.writes.inMem, hu.writes.inLen]
        exact hread
      width := by rw [DecState.init_width, hwidth, ← Option.some_inj.1 hw]; rfl
      height := by rw [DecState.init_height, hheight, ← Option.some_inj.1 hhh]; rfl
      channels := Option.some_inj.1 (hc.symm.trans (byte (by omega)))
      colorspace := Option.some_inj.1 (hcs.symm.trans (byte (by omega)))
      pend := by
        rcases hu.scan with ⟨-, hs⟩ | ⟨-, hs, hpend⟩
        · exact (payloadEnd_of_scan_found hread hlen hs).symm
        · exact hpend.trans (payloadEnd_of_scan_notFound hread hlen hs).symm
      begins := ⟨DecState.inPass_init hu, ⟨rfl, rfl, rfl, rfl, (Nat.zero_mul _).symm, rfl⟩, rfl⟩ }
  · cases herror.symm.trans hb

/-! ### The end (R212) -/

/-- What the engine shows at the end of an operation is what the function answers (R212, R215, R251). -/
def ShowsResult (d : DecState) : Except DecCause Whole.Image → Prop
  | .error c => d.status = .error ∧ d.err = some c
  | .ok img =>
    d.status = .done ∧ d.err = none ∧ d.width = img.width ∧ d.height = img.height ∧ d.channels = img.channels ∧
      d.colorspace = img.colorspace ∧ d.outLen = img.data.length ∧ d.outMem.readBytes 0 d.outLen = some img.data

/-- With the quota met `DEC_OUTLEN` is the number of bytes written (R32, R210). -/
theorem AtInstr.outLen_eq {d0 d : DecState} {p : Whole.DecPass} (h : AtInstr d0 p d) (hq : d.quota ≤ d.po) :
    d.outLen = p.out.length := by
  rw [h.inPass.out_len, h.sim.length, ← h.sim.po, h.inPass.po_le.antisymm hq, DecState.quota]
  ring

/-- The final count check decides as the function does. -/
theorem StartedOn.showsResult {t d : DecState} (h : StartedOn bs t) (hend : AtInstr t (decodedPass bs) d) :
    ShowsResult d.finish
      (if (decodedPass bs).po < headerQuota bs then .error .insufficient
        else .ok ⟨(decodedPass bs).out, headerWidth bs, headerHeight bs, bs.getD 12 0, bs.getD 13 0⟩) := by
  have hquota : d.quota = headerQuota bs := by rw [hend.quota, DecState.quota, h.width, h.height, headerQuota]
  rw [← hquota, ← hend.sim.po]
  rcases decFinish_cases d with ⟨hlt, hf⟩ | ⟨hle, hf⟩ <;> rw [hf]
  · rw [if_pos hlt]
    exact ⟨rfl, rfl⟩
  · rw [if_neg (Nat.not_lt.2 hle)]
    have hlen := hend.outLen_eq hle
    have hframe := hend.frame
    refine ⟨rfl, hend.inPass.err, ?_, ?_, hend.channels.trans h.channels, ?_, hlen, ?_⟩
    · rw [← h.width, ← hframe]
    · rw [← h.height, ← hframe]
    · rw [← h.colorspace, ← hframe]
    · show d.outMem.readBytes 0 d.outLen = _
      rw [hlen]
      exact hend.sim.out

/-- The pass that a start began runs to the result of the function (R201 to R212). -/
theorem StartedOn.run {s : State} (h : StartedOn bs s.dec) (ht : s.turns = []) (hl : 22 ≤ bs.length)
    (hm : bs.take 4 = Config.magic) (hc : channelsOk (bs.getD 12 0)) :
    ∃ k d, k ≤ s.dec.inLen + 1 ∧ Host.Core.run core k s = .next { s with dec := d } ∧
      ShowsResult d (Whole.decode bs) := by
  obtain ⟨k, d, hk, hrun, hend⟩ := run_decode_pass h.busy h.source s.dec.pend ht h.begins (by omega)
  have hpass : decodedPass bs =
      Whole.decodeLoop bs s.dec.channels s.dec.pend s.dec.quota s.dec.pend decPassStart := by
    rw [decodedPass, headerQuota, DecState.quota, h.channels, h.pend, h.width, h.height]
  rw [← hpass] at hend
  rw [wholeDecode_of_header hl hm hc]
  have hpend := h.begins.inPass.rp_range
  exact ⟨k, d.finish, by omega, hrun, h.showsResult hend⟩

end

/-- From the start command to the result: the start's step, then the pass (R200). -/
theorem run_startDec {s : State} {bs : List Byte} (hh : s.host = [.startDec]) (ht : s.turns = [])
    (he : s.enc.status ≠ .busy) (hd : s.dec.status ≠ .busy) (hread : s.dec.inMem.readBytes 0 s.dec.inLen = some bs) :
    ∃ t k, k ≤ s.dec.inLen + 2 ∧ Host.Core.run core k s = .next t ∧ t.enc = s.enc ∧
      ShowsResult t.dec (Whole.decode bs) := by
  have ha : nextAgent s = .host := by simp [nextAgent, ht, he, hd]
  obtain ⟨d, hstart, hreport⟩ := decStart_reports hread
  have hstep : step s = .next { popTurn s with host := [], dec := d } := by
    rw [step_startDec ha hh hd, hstart]
    rfl
  rcases reportsFirstViolation_cases hreport with ⟨c, hdec, herror⟩ | ⟨hl, hm, hc, hb⟩
  · refine ⟨_, 1, by omega, run_succ_of_step 0 hstep, rfl, ?_⟩
    rw [hdec]
    exact herror
  · obtain ⟨k, u, hk, hrun, hshows⟩ := StartedOn.run (s := { popTurn s with host := [], dec := d })
      (startedOn_of_start hread hstart hb) (by rw [popTurn, ht]; rfl) hl hm hc
    have hlen : d.inLen = s.dec.inLen := (decStart_frame hstart).2.2
    exact ⟨_, k + 1, Nat.succ_le_succ (hlen ▸ hk), (run_succ_of_step k hstep).trans hrun, rfl, hshows⟩

/-- Settles O53: both forms make the same checks; where they pass, the pass runs turn by turn, at most one per byte. -/
theorem decoderRunMatchesDecodeFunction : Obligations.DecoderRunMatchesDecodeFunction :=
  fun _ _ hh ht he hd hread => run_startDec hh ht he hd hread

end Sys2Proof.Machine
end

section
/-! The pixels of a buffer as bytes, and the header of a stream as the decoder parses it (R11, R62, R91, R136). -/

namespace Sys2Proof.Machine

/-- A window of a list, byte by byte. -/
theorem take_drop_eq_map_getD {l : List Byte} {a n : Nat} (h : a + n ≤ l.length) :
    (l.drop a).take n = (List.range n).map fun j => l.getD (a + j) 0 := by
  refine List.ext_getElem (by simp; omega) fun j hj hj' => ?_
  have hlt : a + j < l.length := by simp at hj'; omega
  simp [List.getD_eq_getElem?_getD, hlt]

/-- The bytes of pixel `k` are those at its address in the buffer (R62). -/
theorem pixelBytes_pixelAt {pix : List Byte} {c : Byte} (hc : channelsOk c) {k : Nat}
    (hk : (k + 1) * c.toNat ≤ pix.length) :
    DecState.pixelBytes c (Whole.pixelAt pix c k) = (pix.drop (k * c.toNat)).take c.toNat := by
  rw [Nat.succ_mul] at hk
  rw [take_drop_eq_map_getD hk]
  rcases hc with rfl | rfl <;> rfl

theorem take_succ_pixel {pix : List Byte} {c : Byte} (hc : channelsOk c) {k : Nat}
    (hk : (k + 1) * c.toNat ≤ pix.length) :
    pix.take ((k + 1) * c.toNat) =
      pix.take (k * c.toNat) ++ DecState.pixelBytes c (Whole.pixelAt pix c k) := by
  rw [pixelBytes_pixelAt hc hk, Nat.succ_mul, List.take_add]

theorem ofNat_fromBe_be32 (v : Word32) : BitVec.ofNat 32 (fromBe (be32 v)) = v := by
  rw [be32, fromBe_four, ← toNat_eq_be32_bytes, BitVec.ofNat_toNat, BitVec.setWidth_eq]

/-- The decoder parses from a stream what the encoder's header says (R91, R136). -/
theorem parse_header {w h : Word32} {c cs : Byte} {bs : List Byte} (hbs : Whole.header w h c cs <+: bs) :
    bs.take 4 = Config.magic ∧ headerWidth bs = w ∧ headerHeight bs = h ∧ bs.getD 12 0 = c ∧ bs.getD 13 0 = cs := by
  obtain ⟨tl, rfl⟩ := hbs
  exact ⟨rfl, ofNat_fromBe_be32 w, ofNat_fromBe_be32 h, rfl, rfl⟩

end Sys2Proof.Machine
end

section
/-! The loop of R215 over the bytes that the pass of R177 wrote: instruction by instruction it gives the pixels back
(R216). -/

namespace Sys2Proof.Machine

/-! ### Turns of the loop -/

/-- The loop at `q`, with turns enough for the bytes left, goes on at `q'`, with turns enough there. -/
def DecodesTo (bs : List Byte) (c : Byte) (pend quota : Nat) (q q' : Whole.DecPass) : Prop :=
  ∀ n, pend ≤ q.rp + n → ∃ n', pend ≤ q'.rp + n' ∧
    Whole.decodeLoop bs c pend quota n q = Whole.decodeLoop bs c pend quota n' q'

section
variable {bs : List Byte} {c : Byte} {pend quota : Nat} {q q' q'' : Whole.DecPass}

theorem DecodesTo.refl (q : Whole.DecPass) : DecodesTo bs c pend quota q q := fun n hn => ⟨n, hn, rfl⟩

theorem DecodesTo.trans (h : DecodesTo bs c pend quota q q') (h' : DecodesTo bs c pend quota q' q'') :
    DecodesTo bs c pend quota q q'' := fun n hn => by
  obtain ⟨m, hm, hloop⟩ := h n hn
  obtain ⟨k, hk, hloop'⟩ := h' m hm
  exact ⟨k, hk, hloop.trans hloop'⟩

/-- An instruction that stands at `rp` within the payload is one turn. -/
theorem decodesTo_passExec {i : Instr} {rest : List Byte} (hpo : q.po < quota) (hwf : i.WellFormed)
    (hdrop : bs.drop q.rp = encode i ++ rest) (hend : q.rp + i.length ≤ pend) :
    DecodesTo bs c pend quota q (passExec c quota i q) := by
  intro n hn
  have hpos := i.length_range.1
  obtain ⟨m, rfl⟩ : ∃ m, n = m + 1 := ⟨n - 1, by omega⟩
  refine ⟨m, by rw [passExec_rp]; omega, ?_⟩
  rw [Whole.decodeLoop, if_pos ⟨by omega, hpo⟩, decodeStep_of_encode hwf hdrop hend]

/-- A `RUN` that the quota does not clip (R209). -/
theorem passExec_run {n : Nat} (h : q.po + n ≤ quota) :
    passExec c quota (.run n) q = Whole.skip 1 (Whole.emitTimes c n q.prev q) := by
  rw [passExec, emittedCount, Nat.min_eq_left (by omega)]
  rfl

theorem passExec_of_ne_run {i : Instr} (h : ∀ n, i ≠ .run n) :
    passExec c quota i q = Whole.skip i.length (Whole.emit c (emittedPixel q.prev q.cache i) q) := by
  rw [passExec, emittedCount_of_ne_run h]
  rfl

/-- With the quota met the loop is over (R201, D11). -/
theorem decodeLoop_of_quota_met (hpo : quota ≤ q.po) (n : Nat) : Whole.decodeLoop bs c pend quota n q = q := by
  cases n with
  | zero => rfl
  | succ n => exact if_neg (by omega)

end

/-! ### The pass of R177 -/

/-- Induction over the pixels of the pass, with their places in the buffer. -/
theorem encodeFrom_induction_pixelAt {motive : Nat → Whole.EncPass → Prop} {pix : List Byte} {c : Byte} {total : Nat}
    (pixel : ∀ k p, k < total → motive k p → motive (k + 1) (Whole.encodePixel (Whole.pixelAt pix c k) p))
    (n : Nat) {i : Nat} {p : Whole.EncPass} (start : motive i p) (hn : i + n = total) :
    motive total (Whole.encodeFrom pix c n i p) := by
  induction n generalizing i p with
  | zero => exact hn ▸ start
  | succ n ih => exact ih (pixel i p (by omega) start) (by omega)

/-- The variables of the pass with the open run written out (R166, R174). -/
def flushed (p : Whole.EncPass) : Whole.EncPass := { p with run := 0, out := p.out ++ Whole.runBytes p.run }

section
variable {p : Whole.EncPass}

theorem flushed_of_run_zero (h : p.run = 0) : flushed p = p := by
  have hout : p.out ++ Whole.runBytes p.run = p.out := by simp [Whole.runBytes, h]
  rw [flushed, hout, ← h]

theorem passStream_eq (p : Whole.EncPass) : passStream p = (flushed p).out ++ Config.trailer :=
  (List.append_assoc _ _ _).symm

theorem encodePixel_prev_of_full_eq_flushed (h : p.run + 1 = 62) :
    Whole.encodePixel p.prev p = flushed { p with run := p.run + 1 } := by
  have hbyte : Whole.runBytes 62 = [0xFD] := by decide
  rw [encodePixel_prev_of_full h, flushed, h, hbyte]

theorem encodePixel_of_ne_eq_flushed {px : Pixel} (h : px ≠ p.prev) :
    Whole.encodePixel px p =
      { prev := px, cache := cacheStore p.cache px, run := 0
        out := (flushed p).out ++ Whole.emitBytes px p.prev p.cache } := by
  rw [encodePixel_of_ne h, flushed, List.append_assoc]

/-- The stream is only added to (R176). -/
theorem out_prefix_encodePixel (px : Pixel) (p : Whole.EncPass) : p.out <+: (Whole.encodePixel px p).out := by
  by_cases h : px = p.prev
  · subst h
    by_cases hfull : p.run + 1 = 62
    · rw [encodePixel_prev_of_full hfull]
      exact List.prefix_append _ _
    · rw [encodePixel_prev_of_eq hfull]
  · rw [encodePixel_of_ne h]
    exact List.prefix_append _ _

end

/-! ### The two passes side by side -/

/-- The decoder's variables after the bytes that the encoder has written at pixel `k`. It has not seen the open run.
Its cache need not be the encoder's, which does not store on a run (D8); but it agrees on every slot that holds a pixel
of that slot's hash, so on every slot the encoder can hit. -/
structure Mirrors (pix : List Byte) (c : Byte) (k : Nat) (p : Whole.EncPass) (q : Whole.DecPass) : Prop where
  rp : q.rp = p.out.length
  po : q.po + p.run = k
  prev : q.prev = p.prev
  pixels : q.out ++ (List.replicate p.run (DecState.pixelBytes c p.prev)).flatten = pix.take (k * c.toNat)
  slots : ∀ i, pixelHash (cacheGet p.cache i) = i → cacheGet q.cache i = cacheGet p.cache i
  prevSlot : pixelHash (cacheGet p.cache (pixelHash p.prev)) = pixelHash p.prev →
    cacheGet p.cache (pixelHash p.prev) = p.prev

theorem mirrors_start (pix : List Byte) (w h : Word32) (c cs : Byte) :
    Mirrors pix c 0 (passStart w h c cs) decPassStart where
  rp := rfl
  po := rfl
  prev := rfl
  pixels := by rw [Nat.zero_mul]; rfl
  slots _ _ := rfl
  prevSlot h := by
    have hslot : cacheGet emptyCache (pixelHash Config.prevInit) = Config.empty := cacheGet_empty _
    change pixelHash (cacheGet emptyCache (pixelHash Config.prevInit)) = pixelHash Config.prevInit at h
    rw [hslot] at h
    exact absurd h (by decide)

section
variable {pix body : List Byte} {c : Byte} {k quota : Nat} {p : Whole.EncPass} {q : Whole.DecPass}

/-- A pixel that repeats only lengthens the open run. -/
theorem Mirrors.extend (h : Mirrors pix c k p q) (hc : channelsOk c) (hk : (k + 1) * c.toNat ≤ pix.length)
    (hpx : Whole.pixelAt pix c k = p.prev) : Mirrors pix c (k + 1) { p with run := p.run + 1 } q :=
  { h with
    po := congrArg (· + 1) h.po
    pixels := by
      rw [take_succ_pixel hc hk, hpx, ← h.pixels, List.replicate_succ', List.flatten_concat, List.append_assoc] }

/-- An instruction whose bytes the encoder wrote next is one turn of the loop over the whole stream. -/
theorem Mirrors.decodesTo (h : Mirrors pix c k p q) {i : Instr} (hwf : i.WellFormed) (hpo : q.po < quota)
    (hbody : p.out ++ encode i <+: body) (tail : List Byte) :
    DecodesTo (body ++ tail) c body.length quota q (passExec c quota i q) := by
  obtain ⟨rest, rfl⟩ := hbody
  refine decodesTo_passExec (rest := rest ++ tail) hpo hwf ?_ ?_
  · rw [h.rp, List.append_assoc, List.append_assoc, List.drop_left]
  · rw [h.rp, List.length_append, List.length_append, encode_length]
    omega

/-- The `RUN` of the open run repeats the previous pixel as often, and stores it in its slot, where the encoder has it
already or has no pixel it could hit (R209, D8). -/
theorem Mirrors.flush (h : Mirrors pix c k p q) (hrun : p.run ≤ 62) (hk : k ≤ quota) (hbody : (flushed p).out <+: body)
    (tail : List Byte) :
    ∃ q', DecodesTo (body ++ tail) c body.length quota q q' ∧ Mirrors pix c k (flushed p) q' := by
  rcases hr : p.run with _ | r
  · rw [flushed_of_run_zero hr]
    exact ⟨q, .refl q, h⟩
  have hpo := h.po
  have hrunBytes : encode (.run p.run) = Whole.runBytes p.run := by rw [← runBytes_eq, if_pos (by omega)]
  obtain ⟨hprev, hcache⟩ := wholeEmitTimes_succ c r q.prev q
  refine ⟨_, h.decodesTo (i := .run p.run) (Instr.wellFormed_run_iff.2 ⟨by omega, hrun⟩) (by omega)
    (by rw [hrunBytes]; exact hbody) tail, ?_⟩
  rw [passExec_run (by omega), hr]
  exact {
    rp := by
      show (Whole.emitTimes c (r + 1) q.prev q).rp + 1 = (p.out ++ Whole.runBytes p.run).length
      rw [wholeEmitTimes_rp, h.rp, List.length_append, ← hrunBytes, encode_length]
      rfl
    po := by
      show (Whole.emitTimes c (r + 1) q.prev q).po + 0 = k
      rw [wholeEmitTimes_po]
      omega
    prev := hprev.trans h.prev
    pixels := by
      show (Whole.emitTimes c (r + 1) q.prev q).out ++ [] = _
      rw [wholeEmitTimes_out, List.append_nil, h.prev, ← hr, h.pixels]
    slots := fun i hi => by
      show cacheGet (Whole.emitTimes c (r + 1) q.prev q).cache i = cacheGet p.cache i
      rw [hcache, h.prev, cacheGet_store]
      split
      · next heq => subst heq; exact (h.prevSlot hi).symm
      · exact h.slots i hi
    prevSlot := h.prevSlot }

/-- The instruction selected for a pixel gives the pixel back, and both store it (R173, R210, R216 (5)). -/
theorem Mirrors.emit (h : Mirrors pix c k p q) (hrun : p.run = 0) (hc : channelsOk c)
    (hsize : (k + 1) * c.toNat ≤ pix.length) (hk : k < quota) {px : Pixel} (hpx : Whole.pixelAt pix c k = px)
    (hbody : p.out ++ Whole.emitBytes px p.prev p.cache <+: body) (tail : List Byte) :
    ∃ q', DecodesTo (body ++ tail) c body.length quota q q' ∧
      Mirrors pix c (k + 1)
        { prev := px, cache := cacheStore p.cache px, run := 0
          out := p.out ++ Whole.emitBytes px p.prev p.cache } q' := by
  have hpo : q.po = k := by rw [← h.po, hrun]; rfl
  have hpixels : q.out = pix.take (k * c.toNat) := by
    rw [← h.pixels, hrun, List.replicate_zero, List.flatten_nil, List.append_nil]
  rw [emitBytes_eq_encode] at hbody ⊢
  generalize hi : emission (encoderWith p.prev p.cache) px = i at hbody ⊢
  have hpixel : emittedPixel q.prev q.cache i = px := by
    rw [h.prev, ← hi]
    exact emittedPixel_emission (encoderWith p.prev p.cache) px fun hit =>
      (h.slots (pixelHash px) (congrArg pixelHash hit)).trans hit
  have hexec : passExec c quota i q = Whole.skip i.length (Whole.emit c px q) := by
    rw [passExec_of_ne_run (hi ▸ emission_ne_run _ px), hpixel]
  refine ⟨_, h.decodesTo (selected_of_emission_eq hi).wellFormed (by omega) hbody tail, ?_⟩
  rw [hexec]
  exact {
    rp := by
      show q.rp + i.length = (p.out ++ encode i).length
      rw [h.rp, List.length_append, encode_length]
    po := congrArg (· + 1) hpo
    prev := rfl
    pixels := by
      show (q.out ++ DecState.pixelBytes c px) ++ [] = _
      rw [List.append_nil, hpixels, take_succ_pixel hc hsize, hpx]
    slots := fun j hj => by
      show cacheGet (cacheStore q.cache px) j = cacheGet (cacheStore p.cache px) j
      change pixelHash (cacheGet (cacheStore p.cache px) j) = j at hj
      rw [cacheGet_store] at hj ⊢
      rw [cacheGet_store]
      split
      · rfl
      · next hne => rw [if_neg hne] at hj; exact h.slots j hj
    prevSlot := fun _ => cacheGet_store_same p.cache px }

/-- One pixel of the encoder is none, one or two turns of the decoder. -/
theorem Mirrors.encodePixel (h : Mirrors pix c k p q) (hrun : p.run ≤ 61) (hc : channelsOk c)
    (hsize : (k + 1) * c.toNat ≤ pix.length) (hk : k < quota)
    (hbody : (Whole.encodePixel (Whole.pixelAt pix c k) p).out <+: body) (tail : List Byte) :
    ∃ q', DecodesTo (body ++ tail) c body.length quota q q' ∧
      Mirrors pix c (k + 1) (Whole.encodePixel (Whole.pixelAt pix c k) p) q' := by
  by_cases heq : Whole.pixelAt pix c k = p.prev
  · have hext := h.extend hc hsize heq
    rw [heq] at hbody ⊢
    by_cases hfull : p.run + 1 = 62
    · rw [encodePixel_prev_of_full_eq_flushed hfull] at hbody ⊢
      exact hext.flush hfull.le hk hbody tail
    · rw [encodePixel_prev_of_eq hfull]
      exact ⟨q, .refl q, hext⟩
  · rw [encodePixel_of_ne_eq_flushed heq] at hbody ⊢
    obtain ⟨q1, hto1, h1⟩ := h.flush (by omega) hk.le ((List.prefix_append _ _).trans hbody) tail
    obtain ⟨q2, hto2, h2⟩ := h1.emit rfl hc hsize hk rfl hbody tail
    exact ⟨q2, hto1.trans hto2, h2⟩

end

/-! ### The whole stream -/

/-- Over every stream whose payload `body` begins with the bytes written at pixel `k`, the loop comes to mirror the
encoder there. -/
def ReachesMirror (pix : List Byte) (c : Byte) (quota : Nat) (body : List Byte) (k : Nat) (p : Whole.EncPass) : Prop :=
  p.out <+: body → ∃ q, DecodesTo (body ++ Config.trailer) c body.length quota decPassStart q ∧ Mirrors pix c k p q

section
variable {pix body : List Byte} {c : Byte} {k quota : Nat} {p : Whole.EncPass}

theorem ReachesMirror.encodePixel (h : ReachesMirror pix c quota body k p) (hrun : p.run ≤ 61) (hc : channelsOk c)
    (hsize : quota * c.toNat ≤ pix.length) (hk : k < quota) :
    ReachesMirror pix c quota body (k + 1) (Whole.encodePixel (Whole.pixelAt pix c k) p) := fun hbody => by
  obtain ⟨q, hto, hq⟩ := h ((out_prefix_encodePixel _ p).trans hbody)
  obtain ⟨q', hto', hq'⟩ :=
    hq.encodePixel hrun hc ((Nat.mul_le_mul_right _ hk).trans hsize) hk hbody Config.trailer
  exact ⟨q', hto.trans hto', hq'⟩

/-- After all its pixels the encoder's stream is decoded to its payload's end, with every pixel given back. -/
theorem mirrors_encodeFrom {w h : Word32} {cs : Byte} (hc : channelsOk c) (hsize : quota * c.toNat ≤ pix.length)
    (hp : Whole.encodeFrom pix c quota 0 (passStart w h c cs) = p) :
    ∃ q, DecodesTo (passStream p) c (flushed p).out.length quota decPassStart q ∧
      Mirrors pix c quota (flushed p) q := by
  have hpass := encodeFrom_induction_pixelAt (pix := pix) (c := c)
    (motive := fun k p' => PassInv c k p' ∧ ReachesMirror pix c quota (flushed p).out k p')
    (fun k p' hk ⟨hinv, hreach⟩ =>
      ⟨hinv.encodePixel hc (pixelAt_opaque pix · k), hreach.encodePixel hinv.run_le hc hsize hk⟩)
    quota ⟨passInv_start w h c cs, fun _ => ⟨_, .refl _, mirrors_start pix w h c cs⟩⟩ (Nat.zero_add quota)
  rw [hp] at hpass
  obtain ⟨hinv, hreach⟩ := hpass
  obtain ⟨q, hto, hq⟩ := hreach (List.prefix_append _ _)
  obtain ⟨q', hto', hq'⟩ := hq.flush (hinv.run_le.trans (by decide)) le_rfl List.prefix_rfl Config.trailer
  exact ⟨q', passStream_eq p ▸ hto.trans hto', hq'⟩

end

theorem header_prefix_encodeFrom (pix : List Byte) (w h : Word32) (c cs : Byte) (n : Nat) :
    Whole.header w h c cs <+: passStream (Whole.encodeFrom pix c n 0 (passStart w h c cs)) :=
  (encodeFrom_induction (motive := fun _ p => Whole.header w h c cs <+: p.out) (k := 0)
    (fun _ px p _ hp => hp.trans (out_prefix_encodePixel px p)) List.prefix_rfl n 0).trans (List.prefix_append _ _)

/-- Settles O56: the header is parsed back, the payload ends where the encoder's trailer begins (O55), and the loop over
it emits the pixels of the buffer. -/
theorem decodeOfEncodeIsIdentity : Obligations.DecodeOfEncodeIsIdentity := by
  intro pix w h c cs out he
  have hend := encodedPayloadHoldsNoTrailer pix w h c cs out he
  obtain ⟨hlen, -⟩ := encodedSizeIsBounded pix w h c cs out he
  have hsize : c.toNat * w.toNat * h.toNat ≤ pix.length := by
    by_contra hl
    cases (wholeEncode_of_short cs (Nat.lt_of_not_le hl)).symm.trans he
  obtain ⟨hc, rfl⟩ := of_wholeEncode_eq_ok he
  rw [show c.toNat * w.toNat * h.toNat = w.toNat * h.toNat * c.toNat by ring] at hsize ⊢
  obtain ⟨hm, hw, hh, hch, hcs⟩ := parse_header (header_prefix_encodeFrom pix w h c cs (w.toNat * h.toNat))
  generalize hp : Whole.encodeFrom pix c (w.toNat * h.toNat) 0 (passStart w h c cs) = p at hend hlen hm hw hh hch hcs ⊢
  obtain ⟨q, hto, hq⟩ := mirrors_encodeFrom hc hsize hp
  have hpend : Whole.payloadEnd (passStream p) = (flushed p).out.length := by
    rw [hend, passStream_eq, List.length_append]
    rfl
  have hquota : headerQuota (passStream p) = w.toNat * h.toNat := by rw [headerQuota, hw, hh]
  have hpo : q.po = w.toNat * h.toNat := hq.po
  have hpass : decodedPass (passStream p) = q := by
    obtain ⟨n, -, hloop⟩ := hto (flushed p).out.length (Nat.le_add_left _ _)
    rw [decodedPass, hch, hpend, hquota, hloop, decodeLoop_of_quota_met hpo.ge]
  have hout : q.out = pix.take (w.toNat * h.toNat * c.toNat) := (List.append_nil _).symm.trans hq.pixels
  rw [wholeDecode_of_header hlen hm (hch.symm ▸ hc), hpass, hquota, if_neg (by omega), hout, hw, hh, hch, hcs]

end Sys2Proof.Machine
end

section
/-! What went before an operation does not show in its start (R45, R178, R253): ENC writes what it will read, and each
part of the synchroniser answers two decoders on the same input alike. -/

namespace Sys2Proof.Machine

/-- Settles O44: `raise` is that record update, and the codes are the table of R248. -/
theorem raiseSetsCodeAndStatusOnly : Obligations.RaiseSetsCodeAndStatusOnly :=
  ⟨fun _ _ => rfl, fun _ _ => rfl, rfl, rfl, rfl, rfl, rfl, rfl, rfl, rfl, rfl⟩

/-! ### Two encoders -/

/-- The parameters and the input of two encoders agree (R22, R60). -/
structure SameEncOperation (e e' : EncState) : Prop where
  width : e.width = e'.width
  height : e.height = e'.height
  channels : e.channels = e'.channels
  colorspace : e.colorspace = e'.colorspace
  inLen : e.inLen = e'.inLen
  inMem : e.inMem = e'.inMem

/-- The byte below the write pointer is the one written, whatever stood in the space before. -/
theorem Memory.read_writeBytes_inside {m m' : Memory} {bs : List Byte} {a x : Nat} (hlo : a ≤ x)
    (hhi : x < a + bs.length) : (m.writeBytes a bs).read x = (m'.writeBytes a bs).read x := by
  simp only [Memory.read_writeBytes, if_pos (And.intro hlo hhi)]

/-- The header is all that `START_ENC` writes, so below `ENC_WP` nothing older is read (R178). -/
theorem SameEncOperation.start {e e' : EncState} (h : SameEncOperation e e') :
    e.start.status = e'.start.status ∧ e.start.err = e'.start.err ∧
      (e.start.status = .busy →
        e.start = { e'.start with outLen := e.outLen, outMem := e.start.outMem } ∧
        ∀ a, a < e.start.wp → e.start.outMem.read a = e'.start.outMem.read a) := by
  obtain ⟨hw, hh, hc, hcs, hl, hm⟩ := h
  by_cases hsize : e'.inLen < e'.channels.toNat * e'.width.toNat * e'.height.toNat
  · have hsize' : e.inLen < e.channels.toNat * e.width.toNat * e.height.toNat := by rwa [hl, hc, hw, hh]
    rw [encStart_of_short hsize', encStart_of_short hsize]
    exact ⟨rfl, rfl, nofun⟩
  rw [not_lt] at hsize
  have hsize' : e.channels.toNat * e.width.toNat * e.height.toNat ≤ e.inLen := by rwa [hl, hc, hw, hh]
  by_cases hok : channelsOk e'.channels
  · rw [encStart_of_ok hsize' (hc ▸ hok), encStart_of_ok hsize hok, hw, hh, hc, hcs, hl, hm]
    refine ⟨rfl, rfl, fun _ => ⟨?_, fun a ha => Memory.read_writeBytes_inside (Nat.zero_le a) ha⟩⟩
    simp only [EncState.append, EncState.init]
  · rw [encStart_of_bad_channels hsize' (hc ▸ hok), encStart_of_bad_channels hsize hok]
    exact ⟨rfl, rfl, nofun⟩

/-! ### Two decoders: what the synchroniser has made equal so far -/

/-- Before the header is parsed: the input and the status. -/
structure SameInput (d d' : DecState) : Prop where
  inLen : d.inLen = d'.inLen
  inMem : d.inMem = d'.inMem
  status : d.status = d'.status
  err : d.err = d'.err

/-- Behind `HDR_PARSE`: the result registers too (R136). -/
structure SameHeader (d d' : DecState) : Prop extends SameInput d d' where
  width : d.width = d'.width
  height : d.height = d'.height
  channels : d.channels = d'.channels
  colorspace : d.colorspace = d'.colorspace
  outLen : d.outLen = d'.outLen

/-- Behind `TRL_SCAN`: the payload's end too (R137). -/
structure SamePayload (d d' : DecState) : Prop extends SameHeader d d' where
  found : d.found = d'.found
  pend : d.pend = d'.pend

/-- Two answers agree: both stop at a byte nobody placed, or both leave the same status and error and, where the
operation goes on, states related by `R`. -/
def AnswersAlike (R : DecState → DecState → Prop) (x x' : DecOutcome) : Prop :=
  (x = .fault .inputNotPlaced ∧ x' = .fault .inputNotPlaced) ∨
  ∃ t t', x = .next t ∧ x' = .next t' ∧ t.status = t'.status ∧ t.err = t'.err ∧ (t.status = .busy → R t t')

section
variable {R S : DecState → DecState → Prop} {d d' : DecState} {x x' : DecOutcome}

namespace AnswersAlike

theorem fault : AnswersAlike R (.fault .inputNotPlaced) (.fault .inputNotPlaced) := .inl ⟨rfl, rfl⟩

theorem next (hs : d.status = d'.status) (he : d.err = d'.err) (h : R d d') : AnswersAlike R (.next d) (.next d') :=
  .inr ⟨d, d', rfl, rfl, hs, he, fun _ => h⟩

/-- Behind a `raise` nothing has to agree any more (R251). -/
theorem raise (c : DecCause) : AnswersAlike R (.next (d.raise c)) (.next (d'.raise c)) :=
  .inr ⟨_, _, rfl, rfl, rfl, rfl, nofun⟩

/-- Parts that answer alike, one after the other, answer alike (R133). -/
theorem thenBusy {f : DecState → DecOutcome} (h : AnswersAlike R x x')
    (hf : ∀ {d d'}, R d d' → AnswersAlike S (f d) (f d')) :
    AnswersAlike S (Machine.thenBusy x f) (Machine.thenBusy x' f) := by
  rcases h with ⟨rfl, rfl⟩ | ⟨t, t', rfl, rfl, hs, he, hR⟩
  · exact fault
  · by_cases hb : t.status = .busy
    · simpa only [Machine.thenBusy, if_pos hb, if_pos (hs ▸ hb)] using hf (hR hb)
    · simp only [Machine.thenBusy, if_neg hb, if_neg (hs ▸ hb)]
      exact .inr ⟨t, t', rfl, rfl, hs, he, fun h => absurd h hb⟩

end AnswersAlike

/-! ### The parts of the synchroniser -/

theorem SameInput.lenCheck (h : SameInput d d') : AnswersAlike SameInput d.lenCheck d'.lenCheck := by
  by_cases hl : d'.inLen < 22
  · rw [lenCheck_of_lt hl, lenCheck_of_lt (h.inLen ▸ hl)]
    exact .raise _
  · rw [lenCheck_of_le (Nat.le_of_not_lt hl), lenCheck_of_le (h.inLen ▸ Nat.le_of_not_lt hl)]
    exact .next h.status h.err h

theorem SameInput.magicCheck (h : SameInput d d') : AnswersAlike SameInput d.magicCheck d'.magicCheck := by
  unfold DecState.magicCheck
  rw [h.inMem]
  cases d'.inMem.readBytes 0 4 with
  | none => exact .fault
  | some bs =>
    dsimp only
    split
    · exact .next h.status h.err h
    · exact .raise _

theorem SameInput.hdrParse (h : SameInput d d') : AnswersAlike SameHeader d.hdrParse d'.hdrParse := by
  unfold DecState.hdrParse
  rw [h.inMem]
  split
  · exact .next h.status h.err { h with
      inMem := rfl, width := rfl, height := rfl, channels := rfl, colorspace := rfl, outLen := rfl }
  · exact .fault

theorem SameHeader.trlScan (h : SameHeader d d') : AnswersAlike SamePayload d.trlScan d'.trlScan := by
  unfold DecState.trlScan
  rw [h.inMem, h.inLen]
  cases scanFrom d'.inMem (d'.inLen - 21) 14 with
  | found p => exact .next h.status h.err { h with inLen := rfl, inMem := rfl, found := rfl, pend := rfl }
  | notFound => exact .next h.status h.err { h with inLen := rfl, inMem := rfl, found := rfl, pend := rfl }
  | unplaced => exact .fault

theorem SamePayload.trlCheck (h : SamePayload d d') : AnswersAlike SamePayload d.trlCheck d'.trlCheck := by
  unfold DecState.trlCheck
  rw [h.inMem, h.found, h.pend]
  split
  · cases d'.inMem.readBytes d'.pend 8 with
    | none => exact .fault
    | some w =>
      dsimp only
      split
      · exact .next h.status h.err h
      · exact .raise _
  · exact .next h.status h.err h

theorem SamePayload.chCheck (h : SamePayload d d') : AnswersAlike SamePayload d.chCheck d'.chCheck := by
  by_cases hc : channelsOk d'.channels
  · rw [chCheck_of_ok hc, chCheck_of_ok (h.channels ▸ hc)]
    exact .next h.status h.err h
  · rw [chCheck_of_not_ok hc, chCheck_of_not_ok (h.channels ▸ hc)]
    exact .raise _

/-! ### The whole start -/

theorem SameInput.sync (h : SameInput d d') : AnswersAlike SamePayload d.sync d'.sync :=
  ((((h.lenCheck.thenBusy SameInput.magicCheck).thenBusy SameInput.hdrParse).thenBusy SameHeader.trlScan).thenBusy
    SamePayload.trlCheck).thenBusy SamePayload.chCheck

/-- The working registers that the synchroniser left apart are set at the start of the pass (R281). -/
theorem SamePayload.init (h : SamePayload d d') : d.init = { d'.init with outMem := d.outMem } := by
  obtain ⟨⟨⟨hl, hm, hs, he⟩, hw, hh, hc, hcs, hol⟩, hf, hp⟩ := h
  simp only [DecState.init, hl, hm, hs, he, hw, hh, hc, hcs, hol, hf, hp]

theorem decStart_alike (hl : d.inLen = d'.inLen) (hm : d.inMem = d'.inMem) :
    AnswersAlike (fun t t' => t = { t' with outMem := t.outMem }) d.start d'.start :=
  AnswersAlike.thenBusy (SameInput.sync ⟨hl, hm, rfl, rfl⟩) fun h => .next h.status h.err h.init

end

/-- Settles O45: ENC writes all it will read (`SameEncOperation.start`), and DEC's start is determined by its input,
part by part (`decStart_alike`). -/
theorem startForgetsEarlierOperations : Obligations.StartForgetsEarlierOperations :=
  ⟨fun _ _ hw hh hc hcs hl hm => SameEncOperation.start ⟨hw, hh, hc, hcs, hl, hm⟩,
    fun _ _ hl hm => decStart_alike hl hm⟩

end Sys2Proof.Machine
end

section
/-! Where an engine stops, what a BUSY engine does not show, and the reset in the middle of an operation (U6, R280,
R284). -/

namespace Sys2Proof.Machine

/-! ### Stops -/

section
variable {e : EncState}

/-- Were every byte of the pixels placed, the fetch would answer (R162). -/
theorem exists_unplaced_of_fetchPixel_none (hc : channelsOk e.channels) (hm : e.pi < e.quota)
    (hf : fetchPixel e = none) : ∃ a, a < e.quota * e.channels.toNat ∧ e.inMem.read a = none := by
  cases hread : e.inMem.readBytes 0 (e.quota * e.channels.toNat) with
  | none =>
    obtain ⟨a, -, ha, hnone⟩ := Memory.exists_read_none hread
    exact ⟨a, by rwa [Nat.zero_add] at ha, hnone⟩
  | some pix =>
    rw [fetchPixel_eq_pixelAt hread hc (Nat.mul_le_mul_right _ hm)] at hf
    cases hf

theorem encMove_of_not_busy (hb : e.status ≠ .busy) : e.move = .next e := if_neg hb

theorem encMove_of_fetchPixel_none (hb : e.status = .busy) (hm : e.pi < e.quota) (hf : fetchPixel e = none) :
    e.move = .fault .inputNotPlaced := by
  simp only [EncState.move, if_pos hb, if_pos hm, hf]

/-- ENC stops on nothing but an unplaced byte of the pixels (R160, U6). -/
theorem encMove_stop (hc : channelsOk e.channels) :
    (∃ t, e.move = .next t) ∨
    (e.move = .fault .inputNotPlaced ∧ ∃ a, a < e.quota * e.channels.toNat ∧ e.inMem.read a = none) := by
  by_cases hb : e.status = .busy
  · by_cases hm : e.pi < e.quota
    · cases hf : fetchPixel e with
      | some px => exact .inl ⟨_, encMove_pixel hb hm hf⟩
      | none => exact .inr ⟨encMove_of_fetchPixel_none hb hm hf, exists_unplaced_of_fetchPixel_none hc hm hf⟩
    · exact .inl ⟨_, encMove_finish hb (Nat.le_of_not_lt hm)⟩
  · exact .inl ⟨_, encMove_of_not_busy hb⟩

end

/-- Settles O48: a step of an engine is its move, and the stops of the two moves are `encMove_stop` and
`decMove_stop`. -/
theorem enginesStopOnlyOnUnplacedInput : Obligations.EnginesStopOnlyOnUnplacedInput := by
  intro s
  constructor
  · intro ha hc
    rw [step_enc ha]
    rcases encMove_stop hc with ⟨e, he⟩ | ⟨hfault, hunplaced⟩
    · exact .inl ⟨_, mapOutcome_eq_next.2 ⟨e, he, rfl⟩⟩
    · rw [hfault]
      exact .inr ⟨rfl, hunplaced⟩
  · intro ha
    rw [step_dec ha]
    exact decMove_stop (popTurn s)

/-! ### Hardware reset (R280) -/

/-- Settles O3: the host's step delivers the reset; the invariant speaks of the two engines only, so it carries over
from the state after power-on. -/
theorem hardResetAbandonsOperations : Obligations.HardResetAbandonsOperations := by
  intro s cs ha hh
  obtain ⟨hmem, henc, hdec⟩ := resetMeetsInvariant
  exact ⟨_, step_host ha hh, rfl, rfl, ⟨hmem, henc, hdec⟩, rfl⟩

/-! ### Reads of a BUSY engine (R284) -/

theorem hostExec_readReg_of_forbidden {r : HostReg} {s : State} (h : regRight r s = .forbidden) :
    hostExec (.readReg r) s = .refused .hostReadWhileBusy := by
  rw [hostExec, h, hostRead]

theorem hostExec_readMem_of_forbidden {sp : Space} {a : Nat} {s : State} (h : memRight sp a s = .forbidden) :
    hostExec (.readMem sp a) s = .refused .hostReadWhileBusy := by
  rw [hostExec, h, hostRead]

@[simp] theorem resultRight_busy (v : Nat) : resultRight .busy v = .forbidden := rfl

@[simp] theorem outByteRight_busy (len a : Nat) (b : Option Byte) : outByteRight .busy len a b = .forbidden := rfl

/-- Settles O58: while an engine is BUSY, no result register and no output byte of it has the right to be read. -/
theorem busyEngineRefusesResultReads : Obligations.BusyEngineRefusesResultReads := by
  refine fun s => ⟨fun h => ?_, fun h => ?_⟩
  · have right (n : Nat) : resultRight s.enc.status n = .forbidden := by simp [h]
    refine ⟨hostExec_readReg_of_forbidden (right _), fun a => hostExec_readMem_of_forbidden ?_⟩
    simp [memRight, h]
  · have right (n : Nat) : resultRight s.dec.status n = .forbidden := by simp [h]
    have refuse {r : HostReg} {n : Nat} (hr : regRight r s = resultRight s.dec.status n) :
        hostExec (.readReg r) s = .refused .hostReadWhileBusy :=
      hostExec_readReg_of_forbidden (hr.trans (right n))
    refine ⟨refuse rfl, refuse rfl, refuse rfl, refuse rfl, refuse rfl,
      fun a => hostExec_readMem_of_forbidden ?_⟩
    simp [memRight, h]

end Sys2Proof.Machine
end
